-- ==== Sys2Proof/Word.lean ====
section
/-! DEFINITION. The widths of the engine's values (00_scope.md R7, R8; 20_memory.md R60). -/

namespace Sys2Proof

/-- One byte of a key, a message or a digest (00_scope.md R10). -/
abbrev Byte := BitVec 8

/-- A 32-bit register, a command word, a SHA-1 word (00_scope.md R7). -/
abbrev Word := BitVec 32

/-- A 64-bit operand: COUNTER, TIME or STEP (00_scope.md R7, R8). -/
abbrev Dword := BitVec 64

/-- A byte offset into the 4 KiB register window (20_memory.md R60). -/
abbrev Offset := BitVec 12

end Sys2Proof
end

