-- ==== Sys2Proof/Syntax.lean ====
section
/-! DEFINITION. The six commands (30_encoding.md R93, R99) and the reasons a command word is illegal (R96). -/

namespace Sys2Proof

/-- The commands of spec/opcode_table.json, one constructor a row. `d` is the digit count (30_encoding.md R92), a
number as an assembler is given it: `Instr.wellFormed` says which can be encoded (log 12). -/
inductive Instr where
  | hotp (d : Nat)
  | totp (d : Nat)
  | hmac
  | trunc
  | reduce (d : Nat)
  | clear
  deriving DecidableEq, Repr

/-- Why a command word is illegal (30_encoding.md R96): the decoder rejects each by name. -/
inductive DecodeError where
  /-- RSV, bits 31:8, is not zero. -/
  | reservedBits
  /-- OP is 0x0 or one of 0x6 to 0xE. -/
  | illegalOpcode
  /-- DIG is not zero for HMAC, TRUNC or CLEAR. -/
  | digitsNotZero
  deriving DecidableEq, Repr

end Sys2Proof
end

