-- ==== Sys2Proof/WellFormed.lean ====
section
/-! DEFINITION. Which commands an assembler encodes (30_encoding.md R99). -/

namespace Sys2Proof

/-- A digit count the 4-bit field DIG can hold (30_encoding.md R92; "An assembler refuses a d outside 0 to 15,
because it cannot be encoded", R99). 0 and 10 to 15 encode; the engine rejects them. -/
def encodableDigits (d : Nat) : Bool := decide (d ≤ 15)

/-- The well-formed commands: those that have a command word. -/
def Instr.wellFormed : Instr → Bool
  | .hotp d => encodableDigits d
  | .totp d => encodableDigits d
  | .hmac => true
  | .trunc => true
  | .reduce d => encodableDigits d
  | .clear => true

end Sys2Proof
end

