-- ==== Sys2Proof/Decode.lean ====
section
/-! DEFINITION. The decoder of 30_encoding.md R95, total over all 2^32 command words, and the encoder of R99. A
command word is a 32-bit number written whole to CMD: no byte order of it is visible (R90, 20_memory.md R64, R70). -/

namespace Sys2Proof

/-- OP, bits 3:0 (30_encoding.md R91). -/
def opField (w : Word) : BitVec 4 := w.extractLsb' 0 4

/-- DIG, bits 7:4 (30_encoding.md R91). -/
def digField (w : Word) : BitVec 4 := w.extractLsb' 4 4

/-- RSV, bits 31:8 (30_encoding.md R91). -/
def rsvField (w : Word) : BitVec 24 := w.extractLsb' 8 24

/-- The three commands whose DIG must be zero (30_encoding.md R95). -/
def withoutDigits (i : Instr) (dig : BitVec 4) : Except DecodeError Instr :=
  if dig = 0 then .ok i else .error .digitsNotZero

/-- `decode` of 30_encoding.md R95: the command, or the reason the word is illegal. -/
def decode (w : Word) : Except DecodeError Instr :=
  if rsvField w ≠ 0 then .error .reservedBits
  else match (opField w).toNat with
    | 0x1 => .ok (.hotp (digField w).toNat)
    | 0x2 => .ok (.totp (digField w).toNat)
    | 0x5 => .ok (.reduce (digField w).toNat)
    | 0x3 => withoutDigits .hmac (digField w)
    | 0x4 => withoutDigits .trunc (digField w)
    | 0xF => withoutDigits .clear (digField w)
    | _   => .error .illegalOpcode

/-- The word (d << 4) | op of 30_encoding.md R99. -/
def digitsWord (d : Nat) (op : Word) : Word := BitVec.ofNat 32 d <<< 4 ||| op

/-- The command word of a well-formed command (30_encoding.md R99). -/
def encode : Instr → Word
  | .hotp d => digitsWord d 0x1
  | .totp d => digitsWord d 0x2
  | .hmac => 0x00000003
  | .trunc => 0x00000004
  | .reduce d => digitsWord d 0x5
  | .clear => 0x0000000F

/-- The assembler: it refuses what cannot be encoded (30_encoding.md R99). -/
def assemble (i : Instr) : Option Word := if i.wellFormed then some (encode i) else none

/-- The instruction the decoder reads from a table word of `nbits` bits, numbered as spec/opcode_table.json numbers
them; the bits of the command word above `nbits` are zero. A number wider than a command word is no command. -/
def decodeTableWord (nbits w : Nat) : Option Instr :=
  if 32 < nbits ∨ 2 ^ 32 ≤ w then none
  else match decode (BitVec.ofNat 32 w) with
    | .ok i => some i
    | .error _ => none

end Sys2Proof
end

