-- ==== Sys2Proof/Machine/Bytes.lean ====
section
/-! DEFINITION. Byte strings and the big-endian order (00_scope.md R10; 20_memory.md R68 to R70). -/

namespace Sys2Proof.Machine

/-- BE_n(v): byte 0 is the most significant byte (00_scope.md R10). -/
def be : Nat → Nat → List Byte
  | 0, _ => []
  | n + 1, v => BitVec.ofNat 8 (v / 256 ^ n) :: be n v

/-- BE_n^-1(S): the bytes read most significant first (00_scope.md R10). -/
def beInv (bs : List Byte) : Nat := bs.foldl (fun acc b => 256 * acc + b.toNat) 0

/-- S[i] (00_scope.md R10). The model indexes inside the string everywhere it uses this. -/
def byteAt (bs : List Byte) (i : Nat) : Byte := bs.getD i 0

/-- The 32-bit word BE_4^-1(S[4i .. 4i+3]) (40_hmac_sha1.md R122, 10_state.md R36). -/
def wordAt (bs : List Byte) (i : Nat) : Word := BitVec.ofNat 32 (beInv ((bs.drop (4 * i)).take 4))

/-- S ^ b: every byte XORed with b (00_scope.md R10). -/
def xorEach (bs : List Byte) (b : Byte) : List Byte := bs.map (· ^^^ b)

/-- 0x00^k: k zero bytes (00_scope.md R10). -/
def zeros (k : Nat) : List Byte := List.replicate k 0

/-- v[31:0] of a 64-bit register (10_state.md R32 to R34). -/
def loHalf (v : Dword) : Word := v.extractLsb' 0 32

/-- v[63:32] of a 64-bit register (10_state.md R32 to R34). -/
def hiHalf (v : Dword) : Word := v.extractLsb' 32 32

/-- A 64-bit register of its two halves (10_state.md R32 to R34). -/
def joinHalves (hi lo : Word) : Dword := hi ++ lo

/-- A write of the low half leaves the high half unchanged (10_state.md R32 to R34). -/
def setLoHalf (v : Dword) (x : Word) : Dword := joinHalves (hiHalf v) x

/-- A write of the high half leaves the low half unchanged (10_state.md R32 to R34). -/
def setHiHalf (v : Dword) (x : Word) : Dword := joinHalves x (loHalf v)

end Sys2Proof.Machine
end

