-- ==== Sys2Proof/Config.lean ====
section
/-! DEFINITION. What an implementation fixes (00_scope.md R7) and the free values. -/

namespace Sys2Proof

/-- KEY_MAX_BYTES of the engine `State.reset` describes: the spec's default, 256 (00_scope.md R7,
92_eei_decisions.md D5). DESIGN CHOICE, unsafe for a claim that rests on 256, log 1: the parameter is OPEN, so
every state carries its own value in `State.keyMax` and statements range over it. -/
def Config.keyMaxBytes : Nat := 256

/-- The values 00_scope.md R7 admits for KEY_MAX_BYTES. -/
abbrev Config.LegalKeyMax (n : Nat) : Prop := 64 ≤ n ∧ n ≤ 3840 ∧ n % 4 = 0

/-- The free value: the word a HostRead returns, while BUSY, from a register the running command writes
(70_reset_and_hazards.md R268, "A model draws a fresh value, under no law"). It has no body; the argument is the
number of the draw. DESIGN CHOICE of form, safe, log 4. -/
opaque Config.freeRead : Nat → Word

end Sys2Proof
end

