-- ==== Sys2Proof/Machine/State.lean ====
section
/-! DEFINITION. The state of one engine (10_state.md) with its host's outstanding transactions, as plain data, the
reasons a step can stop, and the state after reset (70_reset_and_hazards.md R260). -/

namespace Sys2Proof.Machine

/-- Five 32-bit words: DIGEST0 to DIGEST4 (10_state.md R36), which equal SHA-1's hash words H0 to H4 (20_memory.md
R70); also the working variables a to e of one compression (40_hmac_sha1.md R130). -/
structure Digest where
  w0 : Word
  w1 : Word
  w2 : Word
  w3 : Word
  w4 : Word
  deriving DecidableEq, Repr

/-- The errors a rejected command reports in STATUS.ERR (60_exceptions.md R220). NONE is the absence of one. -/
inductive CmdError where
  | illegalCmd
  | invalidDigits
  | invalidKeyLen
  | invalidStep
  deriving DecidableEq, Repr

/-- The accepted command with its snapshot, `BUSY(cmd, snap)` of 10_state.md R21: per command, exactly the operands
60_exceptions.md R228 latches. `key` is KEY[0 .. KEY_LEN-1], so its length is the latched KEY_LEN (log 16). -/
inductive Job where
  | hotp (d : Nat) (key : List Byte) (counter : Dword)
  | totp (d : Nat) (key : List Byte) (time : Dword) (stepSeconds : Dword)
  | hmac (key : List Byte) (counter : Dword)
  | trunc (digest : Digest)
  | reduce (d : Nat) (p : BitVec 31)
  | clear
  deriving DecidableEq, Repr

/-- The engine phase (10_state.md R21). -/
inductive Phase where
  | idle
  | busy (job : Job)
  deriving DecidableEq, Repr

/-- The key buffer as (index, byte) pairs in canonical form: indexes strictly rising, no listed byte equal to what
an unlisted index reads as (log 13). -/
abbrev Memory := List Host.Cell

/-- What an aligned offset of the window names (10_state.md R39, 20_memory.md R63). -/
inductive Reg where
  | id | cap | ctrl | status | cmd | keyLen
  | counterLo | counterHi | timeLo | timeHi | stepLo | stepHi
  | trunc | code
  | digest0 | digest1 | digest2 | digest3 | digest4
  /-- Word `j` of the key window, offset 0x100 + 4j (10_state.md R35). -/
  | keyWord (j : Nat)
  /-- A RES0 offset (20_memory.md R63). -/
  | res0
  deriving DecidableEq, Repr

/-- The access widths the engine does not admit (20_memory.md R64). -/
inductive OtherWidth where
  | byte
  | half
  | double
  | partialEnables
  deriving DecidableEq, Repr

/-- What the host does next (60_exceptions.md R239, R242). -/
inductive HostOp where
  /-- HostRead(off), a 32-bit access (20_memory.md R61). -/
  | read (off : Offset)
  /-- HostWrite(off, v), a 32-bit access (20_memory.md R62). -/
  | write (off : Offset) (v : Word)
  /-- An access of another width (20_memory.md R64). -/
  | otherWidth (width : OtherWidth) (off : Offset)
  /-- Assert reset (70_reset_and_hazards.md R260). -/
  | reset
  /-- Read STATUS until BUSY = 0 (`wait` of 30_encoding.md R100; log 18). -/
  | wait
  /-- Wait for the interrupt (20_memory.md R75; log 18). -/
  | waitIrq
  deriving DecidableEq, Repr

/-- The two agents (60_exceptions.md R239). -/
inductive Agent where
  | host
  | engine
  deriving DecidableEq, Repr

/-- The whole state. -/
structure State where
  /-- KEY_MAX_BYTES, read through CAP (10_state.md R23, 00_scope.md R7; log 1). -/
  keyMax : Nat
  /-- CTRL.IE (10_state.md R24). -/
  ie : Bool
  /-- STATUS.DONE (10_state.md R27). -/
  done : Bool
  /-- STATUS.OVR (10_state.md R28). -/
  ovr : Bool
  /-- STATUS.ERR (10_state.md R29). -/
  err : Option CmdError
  /-- KEY_LEN (10_state.md R31). -/
  keyLen : Word
  /-- COUNTER, both halves (10_state.md R32). -/
  counter : Dword
  /-- TIME, both halves (10_state.md R33). -/
  time : Dword
  /-- STEP, both halves (10_state.md R34). -/
  stepSeconds : Dword
  /-- DIGEST0 to DIGEST4 (10_state.md R36). -/
  digest : Digest
  /-- TRUNC, bits 30:0 (10_state.md R37). -/
  trunc : BitVec 31
  /-- CODE (10_state.md R38). -/
  code : Word
  /-- The key buffer (10_state.md R35). -/
  key : Memory
  /-- The phase with its snapshot (10_state.md R21). STATUS.BUSY is computed from it (R26). -/
  phase : Phase
  /-- The host's transactions still to come, in program order (20_memory.md R73). The model's own field, log 2. -/
  host : List HostOp
  /-- Which agent moves at the next steps (60_exceptions.md R235). The model's own field, log 3. -/
  turns : List Agent
  /-- What the last host transaction returned (20_memory.md R61). The model's own field, log 11. -/
  response : Option Word
  /-- How many unspecified values have been drawn (70_reset_and_hazards.md R268). The model's own field, log 4. -/
  draws : Nat
  deriving DecidableEq, Repr

/-- Every register at its reset value (10_state.md R39, 70_reset_and_hazards.md R260): all zero but STEP = 30 and
CAP = KEY_MAX_BYTES, every key byte 0x00, the phase IDLE. The last four fields are the model's own: the host has
issued nothing (DESIGN CHOICE, logs 2, 3, 4, 11). -/
def State.reset : State where
  keyMax := Config.keyMaxBytes
  ie := false
  done := false
  ovr := false
  err := none
  keyLen := 0
  counter := 0
  time := 0
  stepSeconds := 30
  digest := ⟨0, 0, 0, 0, 0⟩
  trunc := 0
  code := 0
  key := []
  phase := .idle
  host := []
  turns := []
  response := none
  draws := 0

/-- Why the machine stops with a fault. -/
inductive Fault where
  /-- Raised by a completion whose job acceptance cannot have produced: RED asked for a digit count outside 1 to 9,
  or TSTEP for a divisor 0 (41_truncate_reduce.md R165, 42_otp_commands.md R197 give those no value). No state that
  meets `State.Inv` raises it. Safe, log 9. -/
  | illFormedJob
  deriving DecidableEq, Repr

/-- Why the machine has no step. -/
inductive Refusal where
  /-- Raised by an arm of `exec` that has no meaning yet; no arm is left so. Safe. -/
  | notModelled (mnemonic : String)
  /-- Raised by a host access that is not 32 bits wide: "The model gives it no step: the host is stuck"
  (20_memory.md R64, 93_implementation_defined.md U1). Safe, log 7. -/
  | accessWidth
  /-- Raised by a host access whose offset is no multiple of 4: "gets no step in the model" (20_memory.md R65,
  93_implementation_defined.md U1). Safe, log 7. -/
  | misaligned
  deriving DecidableEq, Repr

/-- The outcome of a step of this machine. -/
abbrev Result := Host.Outcome State Fault Refusal

end Sys2Proof.Machine
end

