-- ==== Sys2Proof/Machine/Flags.lean ====
section
/-! DEFINITION. STATUS, CTRL and CAP as words, their write effects, and the interrupt (10_state.md R23 to R29,
60_exceptions.md R220, R232). -/

namespace Sys2Proof.Machine

/-- STATUS.BUSY equals 1 exactly when the phase is BUSY (10_state.md R26). -/
def State.busy (s : State) : Bool :=
  match s.phase with
  | .idle => false
  | .busy _ => true

/-- The code of an error (60_exceptions.md R220). -/
def CmdError.code : CmdError → BitVec 4
  | .illegalCmd => 1
  | .invalidDigits => 2
  | .invalidKeyLen => 3
  | .invalidStep => 4

/-- STATUS.ERR (10_state.md R29): 0 is NONE. -/
def errField : Option CmdError → BitVec 4
  | none => 0
  | some e => e.code

/-- STATUS as read: BUSY in bit 0, DONE in bit 1, OVR in bit 2, ERR in 7:4, the rest RES0 (10_state.md R25). -/
def State.statusWord (s : State) : Word :=
  (0 : BitVec 24) ++ errField s.err ++ (0 : BitVec 1) ++ BitVec.ofBool s.ovr ++ BitVec.ofBool s.done
    ++ BitVec.ofBool s.busy

/-- CTRL as read: IE in bit 0, the rest RES0 (10_state.md R24). -/
def State.ctrlWord (s : State) : Word := (BitVec.ofBool s.ie).setWidth 32

/-- CAP as read: KEYMAX in 15:0, the rest RES0 (10_state.md R23). -/
def State.capWord (s : State) : Word := (BitVec.ofNat 16 s.keyMax).setWidth 32

/-- TRUNC as read: bit 31 always 0 (10_state.md R37). -/
def State.truncWord (s : State) : Word := s.trunc.setWidth 32

/-- IRQ = CTRL.IE & STATUS.DONE (60_exceptions.md R232). -/
def State.irq (s : State) : Bool := s.ie && s.done

/-- A host write of CTRL (10_state.md R24). -/
def State.writeCtrl (v : Word) (s : State) : State := { s with ie := v.getLsbD 0 }

/-- A host write of STATUS: bit 1 clears DONE, bit 2 clears OVR, the other bits have no effect (10_state.md R25).
This is the engine's return from a report (60_exceptions.md R233). -/
def State.writeStatus (v : Word) (s : State) : State :=
  { s with done := s.done && !v.getLsbD 1, ovr := s.ovr && !v.getLsbD 2 }

end Sys2Proof.Machine
end

