-- ==== Sys2Proof/Machine/Ops.lean ====
section
/-! DEFINITION. The key buffer's reads and writes, the engine's reports (its form of taking an exception, 60_exceptions.md
R231), the acceptance of a command (R222) and reset (70_reset_and_hazards.md R260). -/

namespace Sys2Proof.Machine

/-- What an unlisted byte of the key buffer reads as: its reset value (10_state.md R35). -/
def Memory.unlisted : Byte := 0x00

/-- The canonical form: indexes strictly rising, no entry equal to what an unlisted index reads as. -/
abbrev Memory.wf (m : Memory) : Prop :=
  m.Pairwise (fun c d => c.1 < d.1) ∧ ∀ c ∈ m, c.2 ≠ Memory.unlisted

/-- KEY[a] (00_scope.md R12). -/
def Memory.read : Memory → Nat → Byte
  | [], _ => Memory.unlisted
  | (b, v) :: m, a => if a = b then v else Memory.read m a

/-- KEY[a] <- v on a canonical buffer, keeping the canonical form. -/
def Memory.write : Memory → Nat → Byte → Memory
  | [], a, v => if v = Memory.unlisted then [] else [(a, v)]
  | (b, w) :: m, a, v =>
    if a < b then (if v = Memory.unlisted then (b, w) :: m else (a, v) :: (b, w) :: m)
    else if a = b then (if v = Memory.unlisted then m else (a, v) :: m)
    else (b, w) :: Memory.write m a v

/-- KEY[a], KEY[a+1], ... <- the bytes, in order. -/
def Memory.writeBytes : Memory → Nat → List Byte → Memory
  | m, _, [] => m
  | m, a, v :: vs => Memory.writeBytes (m.write a v) (a + 1) vs

/-- A host write of word `j` of the key window: KEY[4j] <- v[31:24] to KEY[4j+3] <- v[7:0] (10_state.md R35). -/
def State.writeKeyWord (j : Nat) (v : Word) (s : State) : State :=
  { s with key := s.key.writeBytes (4 * j) (be 4 v.toNat) }

/-- Rejection: ERR and DONE are set and nothing else changes (60_exceptions.md R222, R224). With `finish`, the
engine's form of trap entry (R231). -/
def State.reject (e : CmdError) (s : State) : State := { s with err := some e, done := true }

/-- Acceptance: ERR and DONE are cleared and the phase becomes BUSY with the snapshot (60_exceptions.md R222). -/
def State.accept (job : Job) (s : State) : State := { s with err := none, done := false, phase := .busy job }

/-- The end of a completion: BUSY <- 0, DONE <- 1, the phase IDLE; ERR, OVR and CTRL unchanged (60_exceptions.md
R229). -/
def State.finish (s : State) : State := { s with phase := .idle, done := true }

/-- A write dropped while BUSY: its only record is OVR (10_state.md R28, 60_exceptions.md R226). -/
def State.dropWrite (s : State) : State := { s with ovr := true }

/-- `check(cmd)` returns the first error that applies (60_exceptions.md R223). -/
def firstError : List (Option CmdError) → Option CmdError
  | [] => none
  | some e :: _ => some e
  | none :: es => firstError es

/-- `submit` of 60_exceptions.md R222 for a decoded command, atomically within the write of CMD: dropped while BUSY,
else rejected with the first error that applies, else accepted with its snapshot. -/
def State.submit (checks : List (Option CmdError)) (snap : State → Job) (s : State) : Result :=
  if s.busy then .next s.dropWrite
  else match firstError checks with
    | some e => .next (s.reject e)
    | none => .next (s.accept (snap s))

/-- The engine's reset, in either phase (70_reset_and_hazards.md R260): every piece of its state takes its reset
value. KEY_MAX_BYTES is a parameter and stays (log 1); the host's transactions, the turns and the count of draws are
no state of the engine (log 14). -/
def State.hardReset (s : State) : State :=
  { State.reset with keyMax := s.keyMax, host := s.host, turns := s.turns, draws := s.draws }

end Sys2Proof.Machine
end

