-- ==== Sys2Proof/Machine/Operands.lean ====
section
/-! DEFINITION. The operands of the commands: how each is read from the registers, the snapshots of 60_exceptions.md
R228 and the acceptance checks of R223. -/

namespace Sys2Proof.Machine

/-- HS = BE_4(DIGEST0) || ... || BE_4(DIGEST4) (10_state.md R36). -/
def Digest.bytes (d : Digest) : List Byte :=
  be 4 d.w0.toNat ++ be 4 d.w1.toNat ++ be 4 d.w2.toNat ++ be 4 d.w3.toNat ++ be 4 d.w4.toNat

/-- DIGESTi = BE_4^-1(HS[4i .. 4i+3]) (10_state.md R36). -/
def Digest.ofBytes (hs : List Byte) : Digest :=
  ⟨wordAt hs 0, wordAt hs 1, wordAt hs 2, wordAt hs 3, wordAt hs 4⟩

/-- KEY[0 .. KEY_LEN-1] (10_state.md R35). -/
def State.keyBytes (s : State) : List Byte := (List.range s.keyLen.toNat).map s.key.read

/-- VALID_DIGITS(d) (41_truncate_reduce.md R168). -/
def validDigits (d : Nat) : Bool := decide (1 ≤ d ∧ d ≤ 9)

/-- Step 2 of 60_exceptions.md R223. -/
def State.keyLenError (s : State) : Option CmdError :=
  if s.keyMax < s.keyLen.toNat then some .invalidKeyLen else none

/-- Step 3 of 60_exceptions.md R223. -/
def digitsError (d : Nat) : Option CmdError := if validDigits d then none else some .invalidDigits

/-- Step 4 of 60_exceptions.md R223. -/
def State.stepError (s : State) : Option CmdError := if s.stepSeconds = 0 then some .invalidStep else none

/-- HOTP latches KEY_LEN, KEY[0 .. KEY_LEN-1] and COUNTER (60_exceptions.md R228). -/
def snapHotp (d : Nat) (s : State) : Job := .hotp d s.keyBytes s.counter

/-- TOTP latches KEY_LEN, KEY[0 .. KEY_LEN-1], TIME and STEP (60_exceptions.md R228). -/
def snapTotp (d : Nat) (s : State) : Job := .totp d s.keyBytes s.time s.stepSeconds

/-- HMAC latches KEY_LEN, KEY[0 .. KEY_LEN-1] and COUNTER (60_exceptions.md R228). -/
def snapHmac (s : State) : Job := .hmac s.keyBytes s.counter

/-- TRUNC latches DIGEST0..4 (60_exceptions.md R228). -/
def snapTrunc (s : State) : Job := .trunc s.digest

/-- REDUCE latches TRUNC (60_exceptions.md R228). -/
def snapReduce (d : Nat) (s : State) : Job := .reduce d s.trunc

/-- CLEAR latches nothing (60_exceptions.md R228). -/
def snapClear (_ : State) : Job := .clear

/-- The command of an accepted job: its opcode and digit count (10_state.md R21). -/
def Job.command : Job → Instr
  | .hotp d _ _ => .hotp d
  | .totp d _ _ _ => .totp d
  | .hmac _ _ => .hmac
  | .trunc _ => .trunc
  | .reduce d _ => .reduce d
  | .clear => .clear

/-- The snapshot each command takes of the registers (60_exceptions.md R228). -/
def snapshot : Instr → State → Job
  | .hotp d, s => snapHotp d s
  | .totp d, s => snapTotp d s
  | .hmac, s => snapHmac s
  | .trunc, s => snapTrunc s
  | .reduce d, s => snapReduce d s
  | .clear, s => snapClear s

end Sys2Proof.Machine
end

