-- ==== Sys2Proof/Machine/Sha1.lean ====
section
/-! DEFINITION. SHA-1 (40_hmac_sha1.md R122 to R132). -/

namespace Sys2Proof.Machine

/-- ROTL_n(x) = ((x << n) | (x >> (32 - n))) mod 2^32 (40_hmac_sha1.md R122). -/
def rotl (n : Nat) (x : Word) : Word := x <<< n ||| x >>> (32 - n)

/-- pad(M) = M || 0x80 || 0x00^k || BE_8(8n), with k = (55 - n) mod 64 (40_hmac_sha1.md R124); 119 = 55 + 64. -/
def pad (m : List Byte) : List Byte :=
  m ++ [0x80] ++ zeros ((119 - m.length % 64) % 64) ++ be 8 (8 * m.length)

/-- The first `n` blocks of 64 bytes (40_hmac_sha1.md R125). -/
def blocks : Nat → List Byte → List (List Byte)
  | 0, _ => []
  | n + 1, bs => bs.take 64 :: blocks n (bs.drop 64)

/-- H(0) (40_hmac_sha1.md R126). -/
def initialHash : Digest := ⟨0x67452301, 0xEFCDAB89, 0x98BADCFE, 0x10325476, 0xC3D2E1F0⟩

/-- f_t (40_hmac_sha1.md R127). -/
def roundFunction (t : Nat) (b c d : Word) : Word :=
  if t < 20 then (b &&& c) ^^^ (~~~b &&& d)
  else if t < 40 then b ^^^ c ^^^ d
  else if t < 60 then (b &&& c) ^^^ (b &&& d) ^^^ (c &&& d)
  else b ^^^ c ^^^ d

/-- K_t (40_hmac_sha1.md R128). -/
def roundConstant (t : Nat) : Word :=
  if t < 20 then 0x5A827999
  else if t < 40 then 0x6ED9EBA1
  else if t < 60 then 0x8F1BBCDC
  else 0xCA62C1D6

/-- The 16 words of a block (40_hmac_sha1.md R125). -/
def blockWords (block : List Byte) : List Word := (List.range 16).map (wordAt block)

/-- `n` more words of the schedule, the list held newest first: W_t is made from W_{t-3}, W_{t-8}, W_{t-14} and W_{t-16}
(40_hmac_sha1.md R129). -/
def extendSchedule : Nat → List Word → List Word
  | 0, ws => ws
  | n + 1, ws =>
    extendSchedule n (rotl 1 (ws.getD 2 0 ^^^ ws.getD 7 0 ^^^ ws.getD 13 0 ^^^ ws.getD 15 0) :: ws)

/-- W_0 to W_79 (40_hmac_sha1.md R129). -/
def schedule (block : List Byte) : List Word := (extendSchedule 64 (blockWords block).reverse).reverse

/-- Round t: the working variables a to e are w0 to w4 (40_hmac_sha1.md R130). -/
def round (t : Nat) (w : Word) (v : Digest) : Digest :=
  ⟨rotl 5 v.w0 + roundFunction t v.w1 v.w2 v.w3 + v.w4 + roundConstant t + w, v.w0, rotl 30 v.w1, v.w2, v.w3⟩

/-- The rounds from t on, one per schedule word (40_hmac_sha1.md R130). -/
def rounds : Nat → List Word → Digest → Digest
  | _, [], v => v
  | t, w :: ws, v => rounds (t + 1) ws (round t w v)

/-- (H0 + a, H1 + b, H2 + c, H3 + d, H4 + e), each mod 2^32 (40_hmac_sha1.md R130). -/
def Digest.add (h v : Digest) : Digest :=
  ⟨h.w0 + v.w0, h.w1 + v.w1, h.w2 + v.w2, h.w3 + v.w3, h.w4 + v.w4⟩

/-- compress(H, B) (40_hmac_sha1.md R130). -/
def compress (h : Digest) (block : List Byte) : Digest := h.add (rounds 0 (schedule block) h)

/-- SHA1(M), 20 bytes (40_hmac_sha1.md R131). -/
def sha1 (m : List Byte) : List Byte :=
  ((blocks ((pad m).length / 64) (pad m)).foldl compress initialHash).bytes

end Sys2Proof.Machine
end

