-- ==== Sys2Proof/Machine/Hmac.lean ====
section
/-! DEFINITION. The HMAC-SHA1 unit and the HMAC command (40_hmac_sha1.md R120, R133 to R142). -/

namespace Sys2Proof.Machine

/-- K0, the 64-byte padded key (40_hmac_sha1.md R133). -/
def paddedKey (k : List Byte) : List Byte :=
  if k.length ≤ 64 then k ++ zeros (64 - k.length) else sha1 k ++ zeros 44

/-- HMAC_SHA1(K, M) (40_hmac_sha1.md R134). -/
def hmacSha1 (k m : List Byte) : List Byte :=
  sha1 (xorEach (paddedKey k) 0x5C ++ sha1 (xorEach (paddedKey k) 0x36 ++ m))

/-- HS for a key and a counter: the message is BE_8(c) (40_hmac_sha1.md R120, 20_memory.md R68). -/
def counterHmac (k : List Byte) (c : Dword) : List Byte := hmacSha1 k (be 8 c.toNat)

/-- HMAC, written to CMD: acceptance (40_hmac_sha1.md R138). -/
def execHmac (s : State) : Result := s.submit [s.keyLenError] snapHmac

/-- HMAC at completion (40_hmac_sha1.md R140). -/
def completeHmac (key : List Byte) (counter : Dword) (s : State) : Result :=
  .next { s with digest := Digest.ofBytes (counterHmac key counter) }.finish

end Sys2Proof.Machine
end

