-- ==== Sys2Proof/Machine/Truncate.lean ====
section
/-! DEFINITION. The dynamic truncator and the modular reducer, TRUNC and REDUCE (41_truncate_reduce.md). -/

namespace Sys2Proof.Machine

/-- offset = HS[19] & 0x0F (41_truncate_reduce.md R161, R164). -/
def truncOffset (hs : List Byte) : Nat := (byteAt hs 19 &&& 0x0F).toNat

/-- (HS[offset + i] & mask) as a 32-bit term (41_truncate_reduce.md R161). -/
def windowByte (hs : List Byte) (i : Nat) (mask : Byte) : Word :=
  (byteAt hs (truncOffset hs + i) &&& mask).setWidth 32

/-- DT(HS), the 31-bit value P (41_truncate_reduce.md R161). -/
def dynTruncate (hs : List Byte) : BitVec 31 :=
  (windowByte hs 0 0x7F <<< 24 ||| windowByte hs 1 0xFF <<< 16 ||| windowByte hs 2 0xFF <<< 8
    ||| windowByte hs 3 0xFF).setWidth 31

/-- RED(P, d) = P mod 10^d, exact, as a 32-bit code (41_truncate_reduce.md R165, 10_state.md R38). -/
def reduceCode (p : BitVec 31) (d : Nat) : Word := BitVec.ofNat 32 (p.toNat % 10 ^ d)

/-- TRUNC, written to CMD: acceptance (41_truncate_reduce.md R171). -/
def execTrunc (s : State) : Result := s.submit [] snapTrunc

/-- TRUNC at completion (41_truncate_reduce.md R170). -/
def completeTrunc (digest : Digest) (s : State) : Result :=
  .next { s with trunc := dynTruncate digest.bytes }.finish

/-- REDUCE, written to CMD: acceptance (41_truncate_reduce.md R176). -/
def execReduce (d : Nat) (s : State) : Result := s.submit [digitsError d] (snapReduce d)

/-- REDUCE at completion (41_truncate_reduce.md R175). RED is given for 1 <= d <= 9 only (R165; log 9). -/
def completeReduce (d : Nat) (p : BitVec 31) (s : State) : Result :=
  if validDigits d then .next { s with code := reduceCode p d }.finish else .fault .illFormedJob

end Sys2Proof.Machine
end

