-- ==== Sys2Proof/Machine/Otp.lean ====
section
/-! DEFINITION. HOTP, TOTP and CLEAR (42_otp_commands.md). -/

namespace Sys2Proof.Machine

/-- HOTP_F(K, C, d) = RED(DT(HMAC_SHA1(K, BE_8(C))), d) (42_otp_commands.md R191). -/
def hotpCode (k : List Byte) (c : Dword) (d : Nat) : Word := reduceCode (dynTruncate (counterHmac k c)) d

/-- TSTEP(T, X) = floor(T / X), for X >= 1 (42_otp_commands.md R197). -/
def timeStep (t x : Dword) : Dword := t / x

/-- The writes HOTP and TOTP share: DIGEST, TRUNC and CODE (42_otp_commands.md R192, R199). -/
def State.writeOtp (k : List Byte) (c : Dword) (d : Nat) (s : State) : State :=
  { s with
    digest := Digest.ofBytes (counterHmac k c)
    trunc := dynTruncate (counterHmac k c)
    code := hotpCode k c d }

/-- HOTP, written to CMD: acceptance (42_otp_commands.md R193). -/
def execHotp (d : Nat) (s : State) : Result := s.submit [s.keyLenError, digitsError d] (snapHotp d)

/-- HOTP at completion (42_otp_commands.md R192). -/
def completeHotp (d : Nat) (key : List Byte) (counter : Dword) (s : State) : Result :=
  if validDigits d then .next (s.writeOtp key counter d).finish else .fault .illFormedJob

/-- TOTP, written to CMD: acceptance (42_otp_commands.md R200). -/
def execTotp (d : Nat) (s : State) : Result :=
  s.submit [s.keyLenError, digitsError d, s.stepError] (snapTotp d)

/-- TOTP at completion (42_otp_commands.md R199); it also writes the counter it derives (R198). -/
def completeTotp (d : Nat) (key : List Byte) (time stepSeconds : Dword) (s : State) : Result :=
  if validDigits d && decide (stepSeconds ≠ 0) then
    .next ({ s with counter := timeStep time stepSeconds }.writeOtp key (timeStep time stepSeconds) d).finish
  else .fault .illFormedJob

/-- CLEAR, written to CMD: acceptance (42_otp_commands.md R206). -/
def execClear (s : State) : Result := s.submit [] snapClear

/-- CLEAR at completion (42_otp_commands.md R205): the empty list is the key buffer with every byte 0x00. -/
def completeClear (s : State) : Result :=
  .next { s with
    key := []
    keyLen := 0
    counter := 0
    time := 0
    stepSeconds := 30
    digest := ⟨0, 0, 0, 0, 0⟩
    trunc := 0
    code := 0 }.finish

end Sys2Proof.Machine
end

