-- ==== Sys2Proof/Machine/Dispatch.lean ====
section
/-! DEFINITION. One arm per command. `exec` is the command written to CMD (60_exceptions.md R222; log 17). -/

namespace Sys2Proof.Machine

def exec (i : Instr) (s : State) : Host.Outcome State Fault Refusal :=
  match i with
  | .hotp d => Sys2Proof.Machine.execHotp d s
  | .totp d => Sys2Proof.Machine.execTotp d s
  | .hmac => Sys2Proof.Machine.execHmac s
  | .trunc => Sys2Proof.Machine.execTrunc s
  | .reduce d => Sys2Proof.Machine.execReduce d s
  | .clear => Sys2Proof.Machine.execClear s

end Sys2Proof.Machine
end

