-- ==== Sys2Proof/Machine/Window.lean ====
section
/-! DEFINITION. The register window: its map (10_state.md R39) and the two host transactions HostRead and HostWrite
(20_memory.md R61, R62). -/

namespace Sys2Proof.Machine

/-- The registers at fixed offsets (10_state.md R39). -/
def registerMap : List (Nat × Reg) :=
  [(0x000, .id), (0x004, .cap), (0x008, .ctrl), (0x00C, .status), (0x010, .cmd), (0x014, .keyLen),
   (0x018, .counterLo), (0x01C, .counterHi), (0x020, .timeLo), (0x024, .timeHi), (0x028, .stepLo),
   (0x02C, .stepHi), (0x030, .trunc), (0x034, .code), (0x040, .digest0), (0x044, .digest1), (0x048, .digest2),
   (0x04C, .digest3), (0x050, .digest4)]

/-- What an aligned offset names: a register, a word of the key window, or RES0 (10_state.md R39, 20_memory.md R63). -/
def regAt (keyMax : Nat) (off : Offset) : Reg :=
  match registerMap.lookup off.toNat with
  | some r => r
  | none => if 0x100 ≤ off.toNat ∧ off.toNat < 0x100 + keyMax then .keyWord ((off.toNat - 0x100) / 4) else .res0

/-- off mod 4 = 0 (20_memory.md R65). -/
def aligned (off : Offset) : Bool := decide (off.toNat % 4 = 0)

/-- ID = 0x484F5450 (10_state.md R22). -/
def engineId : Word := 0x484F5450

/-- The stored value of a register as the host reads it: WO and RES0 read 0 (20_memory.md R61, R63). -/
def State.readReg (r : Reg) (s : State) : Word :=
  match r with
  | .id => engineId
  | .cap => s.capWord
  | .ctrl => s.ctrlWord
  | .status => s.statusWord
  | .cmd => 0
  | .keyLen => s.keyLen
  | .counterLo => loHalf s.counter
  | .counterHi => hiHalf s.counter
  | .timeLo => loHalf s.time
  | .timeHi => hiHalf s.time
  | .stepLo => loHalf s.stepSeconds
  | .stepHi => hiHalf s.stepSeconds
  | .trunc => s.truncWord
  | .code => s.code
  | .digest0 => s.digest.w0
  | .digest1 => s.digest.w1
  | .digest2 => s.digest.w2
  | .digest3 => s.digest.w3
  | .digest4 => s.digest.w4
  | .keyWord _ => 0
  | .res0 => 0

/-- The write effect of a register other than CMD: RO and RES0 ignore the value (20_memory.md R62). A write of CMD is
`State.submitWord`; the register stores nothing (10_state.md R30). -/
def State.writeReg (r : Reg) (v : Word) (s : State) : State :=
  match r with
  | .id => s
  | .cap => s
  | .ctrl => s.writeCtrl v
  | .status => s.writeStatus v
  | .cmd => s
  | .keyLen => { s with keyLen := v }
  | .counterLo => { s with counter := setLoHalf s.counter v }
  | .counterHi => { s with counter := setHiHalf s.counter v }
  | .timeLo => { s with time := setLoHalf s.time v }
  | .timeHi => { s with time := setHiHalf s.time v }
  | .stepLo => { s with stepSeconds := setLoHalf s.stepSeconds v }
  | .stepHi => { s with stepSeconds := setHiHalf s.stepSeconds v }
  | .trunc => { s with trunc := v.setWidth 31 }
  | .code => s
  | .digest0 => { s with digest := { s.digest with w0 := v } }
  | .digest1 => { s with digest := { s.digest with w1 := v } }
  | .digest2 => { s with digest := { s.digest with w2 := v } }
  | .digest3 => { s with digest := { s.digest with w3 := v } }
  | .digest4 => { s with digest := { s.digest with w4 := v } }
  | .keyWord j => s.writeKeyWord j v
  | .res0 => s

/-- The registers marked "dropped while BUSY" (10_state.md R28, R39). -/
def Reg.droppedWhileBusy : Reg → Bool
  | .cmd | .keyLen | .counterLo | .counterHi | .timeLo | .timeHi | .stepLo | .stepHi | .trunc
  | .digest0 | .digest1 | .digest2 | .digest3 | .digest4 | .keyWord _ => true
  | .id | .cap | .ctrl | .status | .code | .res0 => false

/-- The digest's registers. -/
def digestRegs : List Reg := [.digest0, .digest1, .digest2, .digest3, .digest4]

/-- The registers a running command writes at completion (70_reset_and_hazards.md R268, 10_state.md R40). The key
buffer, which CLEAR also writes, is no register a host can read (log 6). -/
def Job.writtenRegs : Job → List Reg
  | .hotp _ _ _ => digestRegs ++ [.trunc, .code]
  | .totp _ _ _ _ => digestRegs ++ [.trunc, .code, .counterLo, .counterHi]
  | .hmac _ _ => digestRegs
  | .trunc _ => [.trunc]
  | .reduce _ _ => [.code]
  | .clear => digestRegs ++ [.trunc, .code, .keyLen, .counterLo, .counterHi, .timeLo, .timeHi, .stepLo, .stepHi]

/-- A read of this register returns an unspecified value now (70_reset_and_hazards.md R268). -/
def State.unspecified (r : Reg) (s : State) : Bool :=
  match s.phase with
  | .idle => false
  | .busy job => job.writtenRegs.contains r

/-- A read of a register: its stored value, or a fresh free value where R268 leaves it unspecified. No engine state
changes (20_memory.md R61). -/
def State.readFrom (r : Reg) (s : State) : State :=
  if s.unspecified r then { s with response := some (Config.freeRead s.draws), draws := s.draws + 1 }
  else { s with response := some (s.readReg r) }

/-- A command word written to CMD (60_exceptions.md R222): a legal one is executed; an illegal one is rejected with
error 1, or dropped while BUSY like every command. -/
def State.submitWord (w : Word) (s : State) : Result :=
  match decode w with
  | .ok i => exec i s
  | .error _ => .next (if s.busy then s.dropWrite else s.reject .illegalCmd)

/-- A write of a register (20_memory.md R62). -/
def State.writeTo (r : Reg) (v : Word) (s : State) : Result :=
  if r = .cmd then s.submitWord v
  else if s.busy && r.droppedWhileBusy then .next s.dropWrite
  else .next (s.writeReg r v)

/-- HostRead(off) (20_memory.md R61, R65). -/
def hostRead (off : Offset) (s : State) : Result :=
  if aligned off then .next (s.readFrom (regAt s.keyMax off)) else .refused .misaligned

/-- HostWrite(off, v) (20_memory.md R62, R65). The host gets nothing back (60_exceptions.md R242). -/
def hostWrite (off : Offset) (v : Word) (s : State) : Result :=
  if aligned off then { s with response := none }.writeTo (regAt s.keyMax off) v else .refused .misaligned

end Sys2Proof.Machine
end

