-- ==== Sys2Proof/Machine/Agents.lean ====
section
/-! DEFINITION. The two agents' moves (60_exceptions.md R239) and which of them moves next (R235). -/

namespace Sys2Proof.Machine

/-- The completion of an accepted command (60_exceptions.md R229), one definition per command. -/
def complete (job : Job) (s : State) : Result :=
  match job with
  | .hotp d key counter => completeHotp d key counter s
  | .totp d key time stepSeconds => completeTotp d key time stepSeconds s
  | .hmac key counter => completeHmac key counter s
  | .trunc digest => completeTrunc digest s
  | .reduce d p => completeReduce d p s
  | .clear => completeClear s

/-- The engine's move: completion, enabled exactly when the phase is BUSY (60_exceptions.md R229). While IDLE it runs
nothing (70_reset_and_hazards.md R262; log 15). -/
def engineTurn (s : State) : Result :=
  match s.phase with
  | .idle => .next s
  | .busy job => complete job s

/-- One host operation, already taken from `host`. `wait` reads STATUS and stays at the head while BUSY = 1
(30_encoding.md R100); `waitIrq` stays at the head while IRQ = 0 (20_memory.md R75; log 18). -/
def hostOp (op : HostOp) (s : State) : Result :=
  match op with
  | .read off => hostRead off s
  | .write off v => hostWrite off v s
  | .otherWidth _ _ => .refused .accessWidth
  | .reset => .next s.hardReset
  | .wait =>
    if s.busy then .next { s with response := some s.statusWord, host := .wait :: s.host }
    else .next { s with response := some s.statusWord }
  | .waitIrq => if s.irq then .next s else .next { s with host := .waitIrq :: s.host }

/-- The host's move: its next operation, in program order (20_memory.md R73). A host with none issues nothing
(log 15). -/
def hostTurn (s : State) : Result :=
  match s.host with
  | [] => .next s
  | op :: rest => hostOp op { s with host := rest }

/-- Who moves when `turns` says nothing: a reset takes precedence (70_reset_and_hazards.md R260), else a BUSY engine
completes, so that completion always happens (60_exceptions.md R230), else the host moves (log 3). -/
def nextAgent (s : State) : Agent :=
  match s.host with
  | .reset :: _ => .host
  | _ => if s.busy then .engine else .host

/-- Who moves next: the agent `turns` names, else the default (log 3). -/
def State.mover (s : State) : Agent :=
  match s.turns with
  | a :: _ => a
  | [] => nextAgent s

/-- The move of an agent. -/
def agentTurn (a : Agent) (s : State) : Result :=
  match a with
  | .host => hostTurn s
  | .engine => engineTurn s

end Sys2Proof.Machine
end

