-- ==== Sys2Proof/Machine/HostProgram.lean ====
section
/-! DEFINITION. The host's way of writing its programs: a command, and the pseudo-instructions (30_encoding.md R98 to
R100). -/

namespace Sys2Proof.Machine

/-- The offset of CMD (10_state.md R30). -/
def cmdOffset : Offset := 0x010

/-- A command mnemonic stands for one `wr CMD, w` (30_encoding.md R99). -/
def command (i : Instr) : HostOp := .write cmdOffset (encode i)

/-- `set64 NAME, v`: NAME_LO then NAME_HI, which lies four bytes higher (30_encoding.md R100). -/
def set64 (loOffset : Offset) (v : Dword) : List HostOp :=
  [.write loOffset (loHalf v), .write (loOffset + 4) (hiHalf v)]

/-- Word j of a key, missing bytes padded with 0x00 (30_encoding.md R100). -/
def keyWordOf (b : List Byte) (j : Nat) : Word := wordAt (b ++ zeros 3) j

/-- `setkey B`: the key words j = 0 .. ceil(L/4)-1, then KEY_LEN (30_encoding.md R100). DESIGN CHOICE, unsafe, log 20: for a
B longer than 3840 bytes, which no engine holds, R100 gives no expansion (KEYW+j is no 12-bit offset for j >= 960); here
0x100 + 4j is taken modulo 4096 and L modulo 2^32. -/
def setkey (b : List Byte) : List HostOp :=
  (List.range ((b.length + 3) / 4)).map
      (fun j => .write (BitVec.ofNat 12 (0x100 + 4 * j)) (keyWordOf b j))
    ++ [.write 0x014 (BitVec.ofNat 32 b.length)]

/-- `ack`: clears DONE and OVR (30_encoding.md R100). -/
def ack : HostOp := .write 0x00C 0x00000006

end Sys2Proof.Machine
end

