-- ==== Sys2Proof/Machine/Step.lean ====
section
/-! DEFINITION. One step of the machine: the next move in the total order of host accesses and completions
(20_memory.md R73). -/

namespace Sys2Proof.Machine

/-- The next agent moves and its turn is used up (log 3). -/
def step (s : State) : Host.Outcome State Fault Refusal :=
  agentTurn s.mover { s with turns := s.turns.tail }

/-- `s` with the host about to write the command word `w` to CMD as the very next move: commands come to the engine by
that write and no other way (30_encoding.md R90, 20_memory.md R77; log 2). -/
def State.withFetchWord (s : State) (_nbits w : Nat) : State :=
  { s with host := .write cmdOffset (BitVec.ofNat 32 w) :: s.host, turns := .host :: s.turns }

end Sys2Proof.Machine
end

