-- ==== Sys2Proof/Safety.lean ====
section
/-! DEFINITION. What the statements use: the invariant of the machine, what a host must keep to, and what of a state is
the engine's own. -/

namespace Sys2Proof

/-- The commands that read the key (30_encoding.md R93). -/
def Instr.usesKey : Instr → Bool
  | .hotp _ => true
  | .totp _ => true
  | .hmac => true
  | .trunc => false
  | .reduce _ => false
  | .clear => false

/-- The digit count of the commands that have one (30_encoding.md R93). -/
def Instr.digitCount : Instr → Option Nat
  | .hotp d => some d
  | .totp d => some d
  | .hmac => none
  | .trunc => none
  | .reduce d => some d
  | .clear => none

/-- The commands that read STEP (30_encoding.md R93). -/
def Instr.usesStep : Instr → Bool
  | .hotp _ => false
  | .totp _ => true
  | .hmac => false
  | .trunc => false
  | .reduce _ => false
  | .clear => false

end Sys2Proof

namespace Sys2Proof.Machine

/-- An accepted job is one acceptance can have produced (60_exceptions.md R223): KEY_LEN at most KEY_MAX_BYTES, a valid
digit count, a step of at least 1, as each command checks them. -/
def Job.legal (keyMax : Nat) : Job → Prop
  | .hotp d key _ => key.length ≤ keyMax ∧ validDigits d = true
  | .totp d key _ x => key.length ≤ keyMax ∧ validDigits d = true ∧ x ≠ 0
  | .hmac key _ => key.length ≤ keyMax
  | .trunc _ => True
  | .reduce d _ => validDigits d = true
  | .clear => True

/-- The invariant every step keeps. -/
structure State.Inv (s : State) : Prop where
  /-- KEY_MAX_BYTES is a value 00_scope.md R7 admits. -/
  keyMaxLegal : Config.LegalKeyMax s.keyMax
  /-- The key buffer is in its canonical form. -/
  keyCanonical : s.key.wf
  /-- The key buffer has KEY_MAX_BYTES bytes (10_state.md R35). -/
  keyInside : ∀ c ∈ s.key, c.1 < s.keyMax
  /-- DONE = 1 and BUSY = 1 never hold together (10_state.md R27). -/
  doneNotBusy : s.busy = true → s.done = false
  /-- ERR is 0 since acceptance (60_exceptions.md R229). -/
  busyNoError : s.busy = true → s.err = none
  /-- The snapshot equals the registers for the whole BUSY phase (60_exceptions.md R228). -/
  snapshotCurrent : ∀ job, s.phase = .busy job → job = snapshot job.command s
  /-- Every check that could fail was made at acceptance (60_exceptions.md R225). -/
  jobLegal : ∀ job, s.phase = .busy job → job.legal s.keyMax
  /-- CODE is below 10^9 (10_state.md R38). -/
  codeInRange : s.code.toNat < 10 ^ 9

/-- The operations a host may issue (60_exceptions.md R242): 32-bit aligned accesses, reset, and waiting. -/
def HostOp.admitted : HostOp → Bool
  | .read off => aligned off
  | .write off _ => aligned off
  | .otherWidth _ _ => false
  | .reset => true
  | .wait => true
  | .waitIrq => true

/-- The operation the host performs in the next step, if it is the host that moves and it has one. -/
def State.hostNext (s : State) : Option HostOp :=
  match s.mover with
  | .host => s.host.head?
  | .engine => none

/-- `t` differs from `s` at most in the model's own fields (logs 2, 3, 4, 11): every piece of the engine's state is the
same. -/
def State.sameEngine (s t : State) : Prop :=
  t = { s with host := t.host, turns := t.turns, response := t.response, draws := t.draws }

end Sys2Proof.Machine
end

