-- ==== Sys2Proof/Certificates/Slice0/Obligations.lean ====
section
/-! DEFINITION. What the provers are asked to prove of the engine. Each docstring names the rule it formalises. Where a
statement rests on a choice of the model, its docstring names the log entry. -/

open Sys2Proof Sys2Proof.Machine

/-! ### Reset -/

/-- 70_reset_and_hazards.md R260: in either phase, reset makes the phase IDLE, every register its reset value of
10_state.md R39, every key byte 0x00 and IRQ 0. CAP keeps the instance's KEY_MAX_BYTES: the model's choice, log 1. -/
def Obligations.ResetSetsEveryRegister : Prop :=
  ∀ s : State, ∃ t, hostOp .reset s = .next t ∧ t.phase = .idle ∧ t.irq = false ∧ t.statusWord = 0 ∧
    (∀ a, t.key.read a = 0x00) ∧
    ∀ r : Reg, t.readReg r =
      match r with
      | .id => 0x484F5450
      | .cap => s.capWord
      | .stepLo => 0x0000001E
      | _ => 0

/-- 70_reset_and_hazards.md R261: two engines of one capacity, whatever they held, are the same engine after reset, and
no key byte survives. (An inference the spec marks as its own.) -/
def Obligations.NothingSurvivesReset : Prop :=
  ∀ s t s' t' : State, s.keyMax = t.keyMax → hostOp .reset s = .next s' → hostOp .reset t = .next t' →
    s'.sameEngine t' ∧ ∀ a, s'.key.read a = 0x00

/-- 70_reset_and_hazards.md R260, the precedence of reset. The model's choice, logs 3 and 14: with no turn prescribed, a
pending reset is the next step although a command is running. -/
def Obligations.PendingResetGoesFirst : Prop :=
  ∀ (s : State) (rest : List HostOp), s.turns = [] → s.host = .reset :: rest →
    ∃ t, step s = .next t ∧ t.phase = .idle ∧ t.host = rest ∧ t.digest = ⟨0, 0, 0, 0, 0⟩ ∧ t.code = 0 ∧
      t.done = false

/-- The invariant holds after reset, for every capacity 00_scope.md R7 admits. -/
def Obligations.ResetMeetsTheInvariant : Prop :=
  State.reset.Inv ∧ ∀ n, Config.LegalKeyMax n → State.Inv { State.reset with keyMax := n }

/-! ### Whole-machine rules -/

/-- Every step keeps the invariant: the key buffer's form and bounds (10_state.md R35), DONE and BUSY exclusive (R27),
ERR 0 while BUSY and the snapshot equal to the registers (60_exceptions.md R228, R229), CODE below 10^9 (10_state.md
R38). -/
def Obligations.EveryStepKeepsTheInvariant : Prop :=
  ∀ s t : State, s.Inv → step s = .next t → t.Inv

/-- 60_exceptions.md R225: an accepted command always completes, with no error; no step faults. (An inference the spec
marks as its own.) -/
def Obligations.AcceptedCommandsAlwaysComplete : Prop :=
  ∀ s : State, s.Inv →
    (∀ f, step s ≠ .fault f) ∧
    ∀ job, s.phase = .busy job →
      ∃ t, engineTurn s = .next t ∧ t.phase = .idle ∧ t.done = true ∧ t.err = none

/-- 60_exceptions.md R230, weak fairness, for a host that issues admitted operations: a BUSY phase ends after finitely
many steps. The bound is the model's own (log 3): one step more than the prescribed turns. -/
def Obligations.BusyEndsWithinThePrescribedTurns : Prop :=
  ∀ s : State, s.Inv → (∀ op ∈ s.host, op.admitted = true) → s.busy = true →
    ∃ k, k ≤ s.turns.length + 1 ∧ ∃ t : State, Sys2Proof.core.run k s = .next t ∧ t.busy = false

/-- 10_state.md R21: the phase becomes BUSY only by a host write of CMD that is accepted, with the snapshot of that
command; it becomes IDLE only by a completion or a reset; while BUSY the job is the same. -/
def Obligations.PhaseChangesOnlyByAcceptanceCompletionReset : Prop :=
  ∀ s t : State, step s = .next t →
    (s.phase = .idle → ∀ job, t.phase = .busy job →
      ∃ w i, s.hostNext = some (.write 0x010 w) ∧ decode w = .ok i ∧ job = snapshot i s) ∧
    (∀ job, s.phase = .busy job → t.phase = .idle → s.mover = .engine ∨ s.hostNext = some .reset) ∧
    ∀ job job', s.phase = .busy job → t.phase = .busy job' → job' = job

/-- 10_state.md R27: the value of DONE after a step. Completion sets it; a command written while IDLE sets it if it is
rejected and clears it if it is accepted; a write of STATUS with bit 1 clears it; reset clears it; nothing else changes
it. It drives the interrupt. In the invariant it never holds together with BUSY. (That last clause is an inference the
spec marks as its own.) -/
def Obligations.DoneFollowsItsEvents : Prop :=
  ∀ s t : State, step s = .next t →
    t.done =
      (match s.mover, s.host.head? with
      | .engine, _ => s.done || s.busy
      | .host, some (.write off v) =>
        if regAt s.keyMax off = .cmd then (if s.busy then s.done else !t.busy)
        else if regAt s.keyMax off = .status then s.done && !v.getLsbD 1
        else s.done
      | .host, some .reset => false
      | .host, _ => s.done) ∧
    t.irq = (t.ie && t.done) ∧
    (s.Inv → ¬ (t.done = true ∧ t.busy = true))

/-- 10_state.md R28: the value of OVR after a step. A write, while BUSY, of a register marked "dropped while BUSY" sets
it; a write of STATUS with bit 2 clears it; reset clears it; no other event changes it. -/
def Obligations.OvrFollowsItsEvents : Prop :=
  (∀ s t : State, step s = .next t →
    t.ovr =
      match s.mover, s.host.head? with
      | .engine, _ => s.ovr
      | .host, some (.write off v) =>
        if s.busy && (regAt s.keyMax off).droppedWhileBusy then true
        else if regAt s.keyMax off = .status then s.ovr && !v.getLsbD 2
        else s.ovr
      | .host, some .reset => false
      | .host, _ => s.ovr) ∧
  ∀ r : Reg, r.droppedWhileBusy = true ↔
    r ∈ [.cmd, .keyLen, .counterLo, .counterHi, .timeLo, .timeHi, .stepLo, .stepHi, .trunc,
      .digest0, .digest1, .digest2, .digest3, .digest4] ∨ ∃ j, r = .keyWord j

/-- 10_state.md R29: ERR after a step. A command written while IDLE leaves it 0 if it is accepted and an error if it is
rejected; reset sets it to 0; completion, a write of any other register and a command written while BUSY leave it. Its
code is at most 4. -/
def Obligations.ErrFollowsTheLastCommandWrittenWhileIdle : Prop :=
  ∀ s t : State, step s = .next t →
    (∀ off w, s.hostNext = some (.write off w) → regAt s.keyMax off = .cmd → s.busy = false →
      (t.busy = true ∧ t.err = none) ∨ (t.busy = false ∧ t.err ≠ none)) ∧
    (s.hostNext = some .reset → t.err = none) ∧
    (s.hostNext ≠ some .reset →
      (∀ off w, s.hostNext = some (.write off w) → regAt s.keyMax off = .cmd → s.busy = true) →
      t.err = s.err) ∧
    (errField t.err).toNat ≤ 4

/-- 10_state.md R40 ("No command writes ID, CAP or CTRL") and R24: CTRL changes only by its own write and by reset, CAP
never. -/
def Obligations.CtrlAndCapChangeOnlyByTheirOwnRules : Prop :=
  ∀ s t : State, step s = .next t →
    t.keyMax = s.keyMax ∧
    (t.ie ≠ s.ie →
      s.hostNext = some .reset ∨ ∃ off v, s.hostNext = some (.write off v) ∧ regAt s.keyMax off = .ctrl ∧
        t.ie = v.getLsbD 0)

/-! ### Encoding -/

/-- 30_encoding.md R95 and R99: the assembler encodes every well-formed command and no other, and decoding the word gives
the command back. -/
def Obligations.DecodeOfEncodeIsTheCommand : Prop :=
  (∀ i : Instr, i.wellFormed = true → assemble i = some (encode i) ∧ decode (encode i) = .ok i) ∧
  ∀ i : Instr, i.wellFormed = false → assemble i = none

/-- 30_encoding.md R95 and R99, the other direction: a legal word is the encoding of the command it decodes to. -/
def Obligations.EncodeOfDecodeIsTheWord : Prop :=
  ∀ (w : Word) (i : Instr), decode w = .ok i → i.wellFormed = true ∧ encode i = w

/-- 30_encoding.md R95: `decode`, case by case, on the fields RSV = w[31:8], DIG = w[7:4] and OP = w[3:0]. -/
def Obligations.DecodeFollowsTheOpcodeMap : Prop :=
  ∀ w : Word,
    (w.toNat / 256 ≠ 0 → ∃ e, decode w = .error e) ∧
    (w.toNat / 256 = 0 →
      (w.toNat % 16 = 0x1 → decode w = .ok (.hotp (w.toNat / 16 % 16))) ∧
      (w.toNat % 16 = 0x2 → decode w = .ok (.totp (w.toNat / 16 % 16))) ∧
      (w.toNat % 16 = 0x5 → decode w = .ok (.reduce (w.toNat / 16 % 16))) ∧
      (w.toNat % 16 = 0x3 → w.toNat / 16 % 16 = 0 → decode w = .ok .hmac) ∧
      (w.toNat % 16 = 0x4 → w.toNat / 16 % 16 = 0 → decode w = .ok .trunc) ∧
      (w.toNat % 16 = 0xF → w.toNat / 16 % 16 = 0 → decode w = .ok .clear) ∧
      (w.toNat % 16 = 0x3 ∨ w.toNat % 16 = 0x4 ∨ w.toNat % 16 = 0xF → w.toNat / 16 % 16 ≠ 0 →
        ∃ e, decode w = .error e) ∧
      (w.toNat % 16 = 0x0 ∨ 0x6 ≤ w.toNat % 16 ∧ w.toNat % 16 ≤ 0xE → ∃ e, decode w = .error e))

/-- 30_encoding.md R96: exactly 51 words are legal and 30 of them can be accepted; an illegal word submitted while IDLE is
rejected with error 1 and has no other effect. (An inference the spec marks as its own.) -/
def Obligations.FiftyOneWordsAreLegalThirtyAcceptable : Prop :=
  (∃ legal : List Word, legal.Nodup ∧ legal.length = 51 ∧ ∀ w, w ∈ legal ↔ ∃ i, decode w = .ok i) ∧
  (∃ acceptable : List Word, acceptable.Nodup ∧ acceptable.length = 30 ∧
    ∀ w, w ∈ acceptable ↔ ∃ s t : State, s.phase = .idle ∧ s.submitWord w = .next t ∧ t.busy = true) ∧
  ∀ (s : State) (w : Word) (e : DecodeError), s.phase = .idle → decode w = .error e →
    s.submitWord w = .next { s with err := some .illegalCmd, done := true }

/-- 30_encoding.md R99 and 95_test_vectors.md sections 3, 5 and 7: the words the spec writes out. -/
def Obligations.DecodesTheWordsTheSpecWritesOut : Prop :=
  decode 0x00000061 = .ok (.hotp 6) ∧ decode 0x00000082 = .ok (.totp 8) ∧ decode 0x00000003 = .ok .hmac ∧
  decode 0x00000004 = .ok .trunc ∧ decode 0x00000065 = .ok (.reduce 6) ∧ decode 0x0000000F = .ok .clear ∧
  decode 0x000000A5 = .ok (.reduce 10) ∧ decode 0x00000013 = .error .digitsNotZero ∧
  decode 0x00000165 = .error .reservedBits ∧ decode 0x00000000 = .error .illegalOpcode ∧
  decode 0x0000000E = .error .illegalOpcode

/-! ### Steps, submission and rejection -/

/-- 30_encoding.md R90, 20_memory.md R77 and R73: when it is the host's move and it writes a command word to CMD, the step
is the command's meaning (or, for an illegal word, the drop or the rejection with error 1), on the state with the
transaction and the turn used up and no read data returned (the model's own fields, logs 2, 3 and 11). Every other
operation at the head of the host's list is performed likewise: a read is HostRead, a write HostWrite, and the two waits
are operations of the model's own form (log 18). When it is the engine's move the step is its completion. A host with no
operation and an IDLE engine change nothing (log 15). -/
def Obligations.StepRunsTheDecodedCommand : Prop :=
  (∀ (s : State) (w : Word) (i : Instr) (rest : List HostOp), s.mover = .host → s.host = .write 0x010 w :: rest →
    decode w = .ok i →
    step s = exec i { s with turns := s.turns.tail, host := rest, response := none }) ∧
  (∀ (s : State) (w : Word) (e : DecodeError) (rest : List HostOp), s.mover = .host →
    s.host = .write 0x010 w :: rest → decode w = .error e →
    step s = .next (
      if s.busy then { s with turns := s.turns.tail, host := rest, response := none, ovr := true }
      else { s with
        turns := s.turns.tail, host := rest, response := none, err := some .illegalCmd, done := true })) ∧
  (∀ (s : State) (op : HostOp) (rest : List HostOp), s.mover = .host → s.host = op :: rest →
    step s = hostOp op { s with turns := s.turns.tail, host := rest }) ∧
  (∀ (s : State) (off : Offset), hostOp (.read off) s = hostRead off s) ∧
  (∀ (s : State) (off : Offset) (v : Word), hostOp (.write off v) s = hostWrite off v s) ∧
  (∀ s : State, hostOp .wait s
    = .next { s with response := some s.statusWord, host := if s.busy then .wait :: s.host else s.host }) ∧
  (∀ s : State, hostOp .waitIrq s = .next { s with host := if s.irq then s.host else .waitIrq :: s.host }) ∧
  (∀ s : State, s.mover = .host → s.host = [] → step s = .next { s with turns := s.turns.tail }) ∧
  (∀ s : State, s.mover = .engine → step s = engineTurn { s with turns := s.turns.tail }) ∧
  (∀ s : State, s.phase = .idle → engineTurn s = .next s) ∧
  ∀ (s : State) (a : Agent) (rest : List Agent), s.turns = a :: rest → s.mover = a

/-- 60_exceptions.md R222 and R223: `submit` and the order of its checks. Dropped while BUSY; else ILLEGAL_CMD, then
INVALID_KEY_LEN, then INVALID_DIGITS, then INVALID_STEP, each setting ERR and DONE alone; else accepted, with ERR and DONE
cleared and the phase BUSY with the snapshot. -/
def Obligations.SubmissionChecksInOrder : Prop :=
  ∀ (s : State) (w : Word),
    let rejected (e : CmdError) : Result := .next { s with response := none, err := some e, done := true }
    (s.busy = true → hostWrite 0x010 w s = .next { s with response := none, ovr := true }) ∧
    (s.busy = false →
      (∀ e, decode w = .error e → hostWrite 0x010 w s = rejected .illegalCmd) ∧
      ∀ i, decode w = .ok i →
        let keyTooLong := i.usesKey = true ∧ s.keyMax < s.keyLen.toNat
        let badDigits := ∃ d, i.digitCount = some d ∧ ¬ (1 ≤ d ∧ d ≤ 9)
        let badStep := i.usesStep = true ∧ s.stepSeconds = 0
        (keyTooLong → hostWrite 0x010 w s = rejected .invalidKeyLen) ∧
        (¬ keyTooLong → badDigits → hostWrite 0x010 w s = rejected .invalidDigits) ∧
        (¬ keyTooLong → ¬ badDigits → badStep → hostWrite 0x010 w s = rejected .invalidStep) ∧
        (¬ keyTooLong → ¬ badDigits → ¬ badStep → hostWrite 0x010 w s = .next
          { s with response := none, err := none, done := false, phase := .busy (snapshot i s) }))

/-- 60_exceptions.md R224: a rejected command changes ERR and DONE and nothing else. -/
def Obligations.RejectionChangesErrAndDoneOnly : Prop :=
  ∀ (s t : State) (w : Word), s.phase = .idle → hostWrite 0x010 w s = .next t → t.phase = .idle →
    t = { s with response := none, err := t.err, done := true } ∧ t.err ≠ none

/-- 70_reset_and_hazards.md R270: a read of STATUS after a write of CMD while IDLE shows BUSY = 1, DONE = 0, ERR = 0
(accepted and running), or BUSY = 0, DONE = 1, ERR = 0 (accepted and already complete, when a completion came between), or
BUSY = 0, DONE = 1, ERR != 0 (rejected). (An inference the spec marks as its own.) -/
def Obligations.StatusShowsTheOutcomeAtOnce : Prop :=
  ∀ (s t : State) (w : Word), s.phase = .idle → hostWrite 0x010 w s = .next t →
    (t.statusWord &&& 0x000000F3 = 0x00000001 ∧
      ∀ u, engineTurn t = .next u → u.statusWord &&& 0x000000F3 = 0x00000002) ∨
    (t.statusWord &&& 0x00000003 = 0x00000002 ∧ t.statusWord &&& 0x000000F0 ≠ 0)

/-! ### The six commands: acceptance, completion and result -/

/-- 40_hmac_sha1.md R140: HMAC. -/
def Obligations.HmacWritesTheDigest : Prop :=
  ∀ s : State, s.phase = .idle → s.keyLen.toNat ≤ s.keyMax →
    let key := (List.range s.keyLen.toNat).map s.key.read
    let hs := hmacSha1 key (be 8 s.counter.toNat)
    ∃ a, exec .hmac s = .next a ∧
      a = { s with err := none, done := false, phase := .busy (.hmac key s.counter) } ∧
      engineTurn a = .next { s with
        digest := ⟨wordAt hs 0, wordAt hs 1, wordAt hs 2, wordAt hs 3, wordAt hs 4⟩
        err := none
        done := true }

/-- 41_truncate_reduce.md R170: TRUNC. -/
def Obligations.TruncWritesTheTruncatedValue : Prop :=
  ∀ s : State, s.phase = .idle →
    let hs := be 4 s.digest.w0.toNat ++ be 4 s.digest.w1.toNat ++ be 4 s.digest.w2.toNat
      ++ be 4 s.digest.w3.toNat ++ be 4 s.digest.w4.toNat
    ∃ a, exec .trunc s = .next a ∧
      a = { s with err := none, done := false, phase := .busy (.trunc s.digest) } ∧
      engineTurn a = .next { s with trunc := dynTruncate hs, err := none, done := true }

/-- 41_truncate_reduce.md R175: REDUCE. -/
def Obligations.ReduceWritesTheCode : Prop :=
  ∀ (s : State) (d : Nat), s.phase = .idle → 1 ≤ d → d ≤ 9 →
    ∃ a, exec (.reduce d) s = .next a ∧
      a = { s with err := none, done := false, phase := .busy (.reduce d s.trunc) } ∧
      ∃ code : Word, code.toNat = s.trunc.toNat % 10 ^ d ∧ code.toNat < 10 ^ d ∧
        engineTurn a = .next { s with code := code, err := none, done := true }

/-- 42_otp_commands.md R192: HOTP. -/
def Obligations.HotpWritesDigestTruncAndCode : Prop :=
  ∀ (s : State) (d : Nat), s.phase = .idle → s.keyLen.toNat ≤ s.keyMax → 1 ≤ d → d ≤ 9 →
    let key := (List.range s.keyLen.toNat).map s.key.read
    let hs := hmacSha1 key (be 8 s.counter.toNat)
    ∃ a, exec (.hotp d) s = .next a ∧
      a = { s with err := none, done := false, phase := .busy (.hotp d key s.counter) } ∧
      ∃ code : Word, code.toNat = (dynTruncate hs).toNat % 10 ^ d ∧
        engineTurn a = .next { s with
          digest := ⟨wordAt hs 0, wordAt hs 1, wordAt hs 2, wordAt hs 3, wordAt hs 4⟩
          trunc := dynTruncate hs
          code := code
          err := none
          done := true }

/-- 42_otp_commands.md R199: TOTP. -/
def Obligations.TotpWritesCounterDigestTruncAndCode : Prop :=
  ∀ (s : State) (d : Nat), s.phase = .idle → s.keyLen.toNat ≤ s.keyMax → 1 ≤ d → d ≤ 9 → s.stepSeconds ≠ 0 →
    let key := (List.range s.keyLen.toNat).map s.key.read
    ∃ a, exec (.totp d) s = .next a ∧
      a = { s with err := none, done := false, phase := .busy (.totp d key s.time s.stepSeconds) } ∧
      ∃ c : Dword, c.toNat = s.time.toNat / s.stepSeconds.toNat ∧
        let hs := hmacSha1 key (be 8 c.toNat)
        ∃ code : Word, code.toNat = (dynTruncate hs).toNat % 10 ^ d ∧
          engineTurn a = .next { s with
            counter := c
            digest := ⟨wordAt hs 0, wordAt hs 1, wordAt hs 2, wordAt hs 3, wordAt hs 4⟩
            trunc := dynTruncate hs
            code := code
            err := none
            done := true }

/-- 42_otp_commands.md R205: CLEAR. -/
def Obligations.ClearErasesOperandsResultsAndKey : Prop :=
  ∀ s : State, s.phase = .idle →
    ∃ a, exec .clear s = .next a ∧
      a = { s with err := none, done := false, phase := .busy .clear } ∧
      ∃ t, engineTurn a = .next t ∧
        t = { s with
          key := t.key, keyLen := 0, counter := 0, time := 0, stepSeconds := 30, digest := ⟨0, 0, 0, 0, 0⟩,
          trunc := 0, code := 0, err := none, done := true } ∧
        ∀ j, t.key.read j = 0x00

/-- 42_otp_commands.md R206: after CLEAR completes every register reads as after reset, but CTRL and STATUS, where OVR is
unchanged and DONE = 1. -/
def Obligations.AfterClearRegistersReadAsAfterReset : Prop :=
  ∀ s t u : State, s.phase = .busy .clear → engineTurn s = .next t → hostOp .reset s = .next u →
    (∀ r : Reg, r ≠ .ctrl → r ≠ .status → t.readReg r = u.readReg r) ∧
    t.key = u.key ∧ t.ie = s.ie ∧ t.ovr = s.ovr ∧ t.done = true

/-- The frame of a command's submission (60_exceptions.md R222, R224, R226): no register but STATUS, no key byte, no CTRL
bit changes; while IDLE, OVR is unchanged; while BUSY, only OVR changes. For all six commands. -/
def Obligations.SubmissionLeavesEverythingButStatus : Prop :=
  ∀ (i : Instr) (s t : State), exec i s = .next t →
    (∀ r : Reg, r ≠ .status → t.readReg r = s.readReg r) ∧
    (∀ a, t.key.read a = s.key.read a) ∧
    (s.busy = false → t.ovr = s.ovr) ∧
    (s.busy = true → t.ovr = true ∧ t.done = s.done ∧ t.err = s.err ∧ t.phase = s.phase)

/-- The frame of a command's completion (10_state.md R40, 60_exceptions.md R229): a register outside the command's own
column reads as before, but STATUS, where OVR and ERR are unchanged; CTRL is unchanged; every key byte is unchanged but for
CLEAR. For all six commands. -/
def Obligations.CompletionWritesOnlyItsOwnRegisters : Prop :=
  ∀ (s t : State) (job : Job), s.phase = .busy job → engineTurn s = .next t →
    let digest : List Reg := [.digest0, .digest1, .digest2, .digest3, .digest4]
    let written : List Reg := match job with
      | .hmac _ _ => digest
      | .trunc _ => [.trunc]
      | .reduce _ _ => [.code]
      | .hotp _ _ _ => digest ++ [.trunc, .code]
      | .totp _ _ _ _ => digest ++ [.counterLo, .counterHi, .trunc, .code]
      | .clear => digest ++ [.keyLen, .counterLo, .counterHi, .timeLo, .timeHi, .stepLo, .stepHi, .trunc, .code]
    (∀ r : Reg, r ∉ written → r ≠ .status → t.readReg r = s.readReg r) ∧
    (job ≠ .clear → ∀ a, t.key.read a = s.key.read a) ∧
    t.ie = s.ie ∧ t.ovr = s.ovr ∧ t.err = s.err

/-- 10_state.md R38 and 41_truncate_reduce.md R167: the code a command with d digits writes lies in [0, 10^d), and bits
31:30 of CODE are 0; a host write of CODE is ignored and does not set OVR. -/
def Obligations.CodeStaysBelowTenToTheDigits : Prop :=
  (∀ (s t : State) (job : Job) (d : Nat), s.phase = .busy job → job.command.digitCount = some d →
    engineTurn s = .next t →
    t.code.toNat < 10 ^ d ∧ t.code.getLsbD 30 = false ∧ t.code.getLsbD 31 = false) ∧
  ∀ (s : State) (v : Word), hostWrite 0x034 v s = .next { s with response := none }

/-- 40_hmac_sha1.md R135 and R136, 42_otp_commands.md R194, 00_scope.md R6: what HOTP, TOTP and HMAC compute depends on
the operands the command latches alone (60_exceptions.md R228): KEY[0 .. KEY_LEN-1] and KEY_LEN, with COUNTER for HOTP and
HMAC, with TIME and STEP for TOTP. Two engines that agree there, whatever else they hold (key bytes at and above KEY_LEN
among it), give equal results. (An inference the spec marks as its own.) -/
def Obligations.ResultsDependOnTheSnapshotAlone : Prop :=
  ∀ (i : Instr) (s t a b s' t' : State), i.usesKey = true → s.phase = .idle → t.phase = .idle →
    s.keyMax = t.keyMax → s.keyLen = t.keyLen →
    (∀ j, j < s.keyLen.toNat → s.key.read j = t.key.read j) →
    (i.usesStep = false → s.counter = t.counter) →
    (i.usesStep = true → s.time = t.time ∧ s.stepSeconds = t.stepSeconds) →
    exec i s = .next a → exec i t = .next b → a.busy = true →
    engineTurn a = .next s' → engineTurn b = .next t' →
    s'.digest = t'.digest ∧
    (i ≠ .hmac → s'.trunc = t'.trunc ∧ s'.code = t'.code) ∧
    s'.counter = t'.counter

/-- 42_otp_commands.md R198: TOTP writes the counter it derives, the old COUNTER does not matter, and an HOTP with the
same d after it, with no register write between, gives the same CODE. (An inference the spec marks as its own.) -/
def Obligations.HotpAfterTotpGivesTheSameCode : Prop :=
  ∀ (s t : State) (d : Nat), s.phase = .idle → s.keyLen.toNat ≤ s.keyMax → 1 ≤ d → d ≤ 9 → s.stepSeconds ≠ 0 →
    (∃ a, exec (.totp d) s = .next a ∧ engineTurn a = .next t) →
    t.counter.toNat = s.time.toNat / s.stepSeconds.toNat ∧
    (∃ a u, exec (.hotp d) t = .next a ∧ engineTurn a = .next u ∧ u.code = t.code) ∧
    ∀ c : Dword, ∃ a u, exec (.totp d) { s with counter := c } = .next a ∧ engineTurn a = .next u ∧
      u.code = t.code ∧ u.counter = t.counter

/-- 42_otp_commands.md R202, "TOTP equivalence": TOTP at any TIME in [30i, 30i+29] with STEP = 30 equals HOTP at
COUNTER = i, with the same key and d. -/
def Obligations.TotpInWindowEqualsHotpAtItsIndex : Prop :=
  ∀ (s t s' t' : State) (d i : Nat), s.phase = .idle → t.phase = .idle →
    s.keyLen = t.keyLen → s.key = t.key → s.keyLen.toNat ≤ s.keyMax → t.keyLen.toNat ≤ t.keyMax →
    1 ≤ d → d ≤ 9 → s.stepSeconds = 30 → 30 * i ≤ s.time.toNat → s.time.toNat ≤ 30 * i + 29 →
    t.counter.toNat = i →
    (∃ a, exec (.totp d) s = .next a ∧ engineTurn a = .next s') →
    (∃ a, exec (.hotp d) t = .next a ∧ engineTurn a = .next t') →
    s'.code = t'.code ∧ s'.trunc = t'.trunc ∧ s'.digest = t'.digest ∧ s'.counter.toNat = i

/-! ### The datapath -/

/-- 40_hmac_sha1.md R124: pad(M) = M || 0x80 || 0x00^k || BE_8(8n), k the least with (n + 1 + k) mod 64 = 56, that is
(55 - n) mod 64; the length is a multiple of 64. -/
def Obligations.PaddingFillsWholeBlocks : Prop :=
  ∀ m : List Byte, ∃ k,
    pad m = m ++ [0x80] ++ List.replicate k 0x00 ++ be 8 (8 * m.length) ∧
    (m.length + 1 + k) % 64 = 56 ∧ (∀ j, (m.length + 1 + j) % 64 = 56 → k ≤ j) ∧
    (k : Int) = (55 - (m.length : Int)) % 64 ∧
    (pad m).length % 64 = 0

/-- 40_hmac_sha1.md R129: the schedule's 80 words, the first 16 from the block and each later one from four earlier. -/
def Obligations.ScheduleFollowsItsRecurrence : Prop :=
  ∀ block : List Byte, (schedule block).length = 80 ∧
    (∀ t, t ≤ 15 → (schedule block).getD t 0 = wordAt block t) ∧
    ∀ t, 16 ≤ t → t ≤ 79 →
      (schedule block).getD t 0 =
        rotl 1 ((schedule block).getD (t - 3) 0 ^^^ (schedule block).getD (t - 8) 0
          ^^^ (schedule block).getD (t - 14) 0 ^^^ (schedule block).getD (t - 16) 0)

/-- 40_hmac_sha1.md R130: compress(H, B) runs 80 rounds from the working variables H, each as the pseudocode says, and
adds the result to H; with the tables of R127 (the round functions) and R128 (the round constants), and the rotation. -/
def Obligations.CompressionRunsEightyRounds : Prop :=
  (∀ (t : Nat) (b c d : Word),
    (t ≤ 19 → roundFunction t b c d = (b &&& c) ^^^ (~~~b &&& d) ∧ roundConstant t = 0x5A827999) ∧
    (20 ≤ t → t ≤ 39 → roundFunction t b c d = b ^^^ c ^^^ d ∧ roundConstant t = 0x6ED9EBA1) ∧
    (40 ≤ t → t ≤ 59 →
      roundFunction t b c d = (b &&& c) ^^^ (b &&& d) ^^^ (c &&& d) ∧ roundConstant t = 0x8F1BBCDC) ∧
    (60 ≤ t → t ≤ 79 → roundFunction t b c d = b ^^^ c ^^^ d ∧ roundConstant t = 0xCA62C1D6)) ∧
  (∀ (n i : Nat) (x : Word), n ≤ 31 → i ≤ 31 → (rotl n x).getLsbD ((i + n) % 32) = x.getLsbD i) ∧
  ∀ (h : Digest) (block : List Byte), ∃ v : Nat → Digest, v 0 = h ∧
    (∀ t, t ≤ 79 → v (t + 1) =
      { w0 := rotl 5 (v t).w0 + roundFunction t (v t).w1 (v t).w2 (v t).w3 + (v t).w4 + roundConstant t
          + (schedule block).getD t 0
        w1 := (v t).w0
        w2 := rotl 30 (v t).w1
        w3 := (v t).w2
        w4 := (v t).w3 }) ∧
    compress h block =
      { w0 := h.w0 + (v 80).w0
        w1 := h.w1 + (v 80).w1
        w2 := h.w2 + (v 80).w2
        w3 := h.w3 + (v 80).w3
        w4 := h.w4 + (v 80).w4 }

/-- 40_hmac_sha1.md R131: SHA1(M) applies compress to the 64-byte blocks of pad(M) in order, from H(0), and is the 20
bytes of the last state; with the rule's two examples and the words of H(0), R126. -/
def Obligations.Sha1ChainsTheBlocksOfThePaddedMessage : Prop :=
  (∀ m : List Byte, ∃ h : Nat → Digest, h 0 = ⟨0x67452301, 0xEFCDAB89, 0x98BADCFE, 0x10325476, 0xC3D2E1F0⟩ ∧
    (∀ i, i < (pad m).length / 64 → h (i + 1) = compress (h i) (((pad m).drop (64 * i)).take 64)) ∧
    sha1 m = be 4 (h ((pad m).length / 64)).w0.toNat ++ be 4 (h ((pad m).length / 64)).w1.toNat
      ++ be 4 (h ((pad m).length / 64)).w2.toNat ++ be 4 (h ((pad m).length / 64)).w3.toNat
      ++ be 4 (h ((pad m).length / 64)).w4.toNat ∧
    (sha1 m).length = 20) ∧
  sha1 [0x61, 0x62, 0x63] = be 20 0xa9993e364706816aba3e25717850c26c9cd0d89d ∧
  sha1 [] = be 20 0xda39a3ee5e6b4b0d3255bfef95601890afd80709

/-- 40_hmac_sha1.md R133 and R134: K0 is the key padded with zeros to 64 bytes, or its SHA-1 padded so when it is longer;
HMAC is the nested hash, 20 bytes long, of an inner digest of 20 bytes; for an 8-byte message the inner message is 72
bytes and the outer 84, each two blocks when padded. -/
def Obligations.HmacIsTheNestedHashOfThePaddedKey : Prop :=
  ∀ k m : List Byte, ∃ k0 : List Byte, k0.length = 64 ∧
    (k.length ≤ 64 → k0 = k ++ List.replicate (64 - k.length) 0x00) ∧
    (64 < k.length → k0 = sha1 k ++ List.replicate 44 0x00) ∧
    let inner := k0.map (· ^^^ 0x36) ++ m
    let outer := k0.map (· ^^^ 0x5C) ++ sha1 inner
    hmacSha1 k m = sha1 outer ∧ (sha1 inner).length = 20 ∧ (hmacSha1 k m).length = 20 ∧
    (m.length = 8 →
      inner.length = 72 ∧ outer.length = 84 ∧ (pad inner).length = 2 * 64 ∧ (pad outer).length = 2 * 64)

/-- 40_hmac_sha1.md R136: two keys of at most 64 bytes that differ only by trailing zero bytes give the same HS. -/
def Obligations.TrailingZeroKeyBytesDoNotMatter : Prop :=
  ∀ (k m : List Byte) (n : Nat), k.length + n ≤ 64 →
    hmacSha1 (k ++ List.replicate n 0x00) m = hmacSha1 k m

/-- 41_truncate_reduce.md R161 and R162: with offset = HS[19] & 0x0F, P = BE_4^-1(HS[offset .. offset+3]) & 0x7FFFFFFF;
the window ends at index 18 at the latest. (R162 and that form of P are inferences the spec marks as its own.) -/
def Obligations.TruncationReadsTheWindowAtTheOffset : Prop :=
  ∀ hs : List Byte, hs.length = 20 →
    let offset := (byteAt hs 19).toNat % 16
    truncOffset hs = offset ∧ offset + 3 ≤ 18 ∧
    (dynTruncate hs).toNat
      = ((byteAt hs offset).toNat % 128) * 2 ^ 24 + (byteAt hs (offset + 1)).toNat * 2 ^ 16
        + (byteAt hs (offset + 2)).toNat * 2 ^ 8 + (byteAt hs (offset + 3)).toNat ∧
    (dynTruncate hs).toNat = beInv ((hs.drop offset).take 4) % 2 ^ 31

/-- 41_truncate_reduce.md R163: every 31-bit value is the truncation of some 20-byte digest, one with offset 0 that begins
with the value's four bytes, and TRUNC reads with bit 31 zero. (An inference the spec marks as its own.) -/
def Obligations.EveryThirtyOneBitValueIsATruncation : Prop :=
  (∀ p : BitVec 31, ∃ hs : List Byte, hs.length = 20 ∧ dynTruncate hs = p ∧ truncOffset hs = 0 ∧
    hs.take 4 = be 4 p.toNat) ∧
  ∀ s : State, s.truncWord.getLsbD 31 = false ∧ s.truncWord.toNat ≤ 0x7FFFFFFF

/-- 41_truncate_reduce.md R165: RED(P, d) = P mod 10^d, in [0, 10^d). -/
def Obligations.ReductionIsTheRemainder : Prop :=
  ∀ (p : BitVec 31) (d : Nat), 1 ≤ d → d ≤ 9 →
    (reduceCode p d).toNat = p.toNat % 10 ^ d ∧ (reduceCode p d).toNat < 10 ^ d ∧ 10 ^ d < 2 ^ 32

/-- 42_otp_commands.md R197 and R201: TSTEP is exact unsigned division, at most T; the corner cases of R201, which are
inferences the spec marks as its own. -/
def Obligations.TimeStepIsExactDivision : Prop :=
  (∀ t x : Dword, x ≠ 0 → (timeStep t x).toNat = t.toNat / x.toNat ∧ (timeStep t x).toNat ≤ t.toNat) ∧
  (∀ t x : Dword, t.toNat < x.toNat → timeStep t x = 0) ∧
  (∀ t : Dword, timeStep t 1 = t) ∧
  timeStep 0xFFFFFFFFFFFFFFFF 30 = 0x0888888888888888 ∧
  ∀ t : Dword, timeStep t 0xFFFFFFFFFFFFFFFF = if t = 0xFFFFFFFFFFFFFFFF then 1 else 0

/-- 10_state.md R36 and 20_memory.md R70: the digest's 20 bytes, most significant first in each word, and back. -/
def Obligations.DigestWordsAreBigEndian : Prop :=
  (∀ d : Digest, d.bytes =
    [d.w0.extractLsb' 24 8, d.w0.extractLsb' 16 8, d.w0.extractLsb' 8 8, d.w0.extractLsb' 0 8,
     d.w1.extractLsb' 24 8, d.w1.extractLsb' 16 8, d.w1.extractLsb' 8 8, d.w1.extractLsb' 0 8,
     d.w2.extractLsb' 24 8, d.w2.extractLsb' 16 8, d.w2.extractLsb' 8 8, d.w2.extractLsb' 0 8,
     d.w3.extractLsb' 24 8, d.w3.extractLsb' 16 8, d.w3.extractLsb' 8 8, d.w3.extractLsb' 0 8,
     d.w4.extractLsb' 24 8, d.w4.extractLsb' 16 8, d.w4.extractLsb' 8 8, d.w4.extractLsb' 0 8]) ∧
  ∀ hs : List Byte, hs.length = 20 → (Digest.ofBytes hs).bytes = hs

/-! ### The register window -/

/-- 10_state.md R22 and R23: ID reads 0x484F5450 and CAP reads KEY_MAX_BYTES, zero-extended, in either phase; writes of
them are ignored and do not set OVR. -/
def Obligations.IdAndCapReadTheirConstants : Prop :=
  ∀ (s : State) (v : Word), Config.LegalKeyMax s.keyMax →
    hostRead 0x000 s = .next { s with response := some 0x484F5450 } ∧
    (∃ cap : Word, cap.toNat = s.keyMax ∧ hostRead 0x004 s = .next { s with response := some cap }) ∧
    hostWrite 0x000 v s = .next { s with response := none } ∧
    hostWrite 0x004 v s = .next { s with response := none }

/-- 10_state.md R24: CTRL holds IE in bit 0, written whatever the phase, with no OVR; bits 31:1 read 0; 0 after reset. -/
def Obligations.CtrlHoldsTheInterruptEnable : Prop :=
  ∀ (s : State) (v : Word),
    hostWrite 0x008 v s = .next { s with response := none, ie := v.getLsbD 0 } ∧
    hostRead 0x008 s = .next { s with response := some (if s.ie then 1 else 0) } ∧
    ∃ t, hostOp .reset s = .next t ∧ t.ie = false

/-- 10_state.md R25: the fields of STATUS as read, in either phase, and its write effects: bit 1 clears DONE, bit 2 clears
OVR, no other bit has an effect, and a write while BUSY applies them too; 0 after reset. -/
def Obligations.StatusReadsItsFieldsAndClearsByOnes : Prop :=
  ∀ (s : State) (v : Word),
    (∃ st : Word, hostRead 0x00C s = .next { s with response := some st } ∧
      st.toNat = s.busy.toNat + 2 * s.done.toNat + 4 * s.ovr.toNat + 16 *
        (match s.err with
        | none => 0
        | some .illegalCmd => 1
        | some .invalidDigits => 2
        | some .invalidKeyLen => 3
        | some .invalidStep => 4)) ∧
    hostWrite 0x00C v s = .next { s with
      response := none
      done := if v.getLsbD 1 then false else s.done
      ovr := if v.getLsbD 2 then false else s.ovr } ∧
    ∃ t, hostOp .reset s = .next t ∧ t.statusWord = 0

/-- 20_memory.md R63: the RES0 offsets read 0 and ignore writes, with no OVR, in either phase. -/
def Obligations.ReservedOffsetsReadZeroAndIgnoreWrites : Prop :=
  ∀ (s : State) (off : Offset) (v : Word), off.toNat % 4 = 0 →
    (off.toNat = 0x038 ∨ off.toNat = 0x03C ∨ 0x054 ≤ off.toNat ∧ off.toNat ≤ 0x0FC ∨
      0x100 + s.keyMax ≤ off.toNat) →
    hostRead off s = .next { s with response := some 0 } ∧ hostWrite off v s = .next { s with response := none }

/-- 10_state.md R28, R31 to R34, R36, R37 and 20_memory.md R62: while IDLE a write of an RW operand register stores the
value in its own field (TRUNC without bit 31, a 64-bit register in the half named), which then reads so; every other
register, the other half of a 64-bit one among them, and every key byte stay. While BUSY, whichever command runs, it is
dropped: OVR is set and everything else stays. -/
def Obligations.OperandWritesStoreWhileIdleAndDropWhileBusy : Prop :=
  ∀ (s t : State) (off : Offset) (v : Word),
    (off, regAt s.keyMax off, t) ∈ ([
      (0x014, .keyLen, { s with response := none, keyLen := v }),
      (0x018, .counterLo, { s with response := none, counter := s.counter.extractLsb' 32 32 ++ v }),
      (0x01C, .counterHi, { s with response := none, counter := v ++ s.counter.extractLsb' 0 32 }),
      (0x020, .timeLo, { s with response := none, time := s.time.extractLsb' 32 32 ++ v }),
      (0x024, .timeHi, { s with response := none, time := v ++ s.time.extractLsb' 0 32 }),
      (0x028, .stepLo, { s with response := none, stepSeconds := s.stepSeconds.extractLsb' 32 32 ++ v }),
      (0x02C, .stepHi, { s with response := none, stepSeconds := v ++ s.stepSeconds.extractLsb' 0 32 }),
      (0x030, .trunc, { s with response := none, trunc := v.extractLsb' 0 31 }),
      (0x040, .digest0, { s with response := none, digest := { s.digest with w0 := v } }),
      (0x044, .digest1, { s with response := none, digest := { s.digest with w1 := v } }),
      (0x048, .digest2, { s with response := none, digest := { s.digest with w2 := v } }),
      (0x04C, .digest3, { s with response := none, digest := { s.digest with w3 := v } }),
      (0x050, .digest4, { s with response := none, digest := { s.digest with w4 := v } })] :
        List (Offset × Reg × State)) →
    (s.phase = .idle → hostWrite off v s = .next t ∧
      t.readReg (regAt s.keyMax off) = (if off = 0x030 then v &&& 0x7FFFFFFF else v) ∧
      (∀ r : Reg, r ≠ regAt s.keyMax off → t.readReg r = s.readReg r) ∧
      ∀ a, t.key.read a = s.key.read a) ∧
    ∀ job, s.phase = .busy job → hostWrite off v s = .next { s with response := none, ovr := true }

/-- 10_state.md R39: the map of the window, for every offset of the table. -/
def Obligations.WindowFollowsTheRegisterMap : Prop :=
  ∀ n, Config.LegalKeyMax n →
    (∀ p ∈ ([(0x000, .id), (0x004, .cap), (0x008, .ctrl), (0x00C, .status), (0x010, .cmd), (0x014, .keyLen),
      (0x018, .counterLo), (0x01C, .counterHi), (0x020, .timeLo), (0x024, .timeHi), (0x028, .stepLo),
      (0x02C, .stepHi), (0x030, .trunc), (0x034, .code), (0x038, .res0), (0x03C, .res0), (0x040, .digest0),
      (0x044, .digest1), (0x048, .digest2), (0x04C, .digest3), (0x050, .digest4)] : List (Offset × Reg)),
      regAt n p.1 = p.2) ∧
    (∀ off : Offset, 0x054 ≤ off.toNat → off.toNat ≤ 0x0FC → regAt n off = .res0) ∧
    (∀ (off : Offset) (j : Nat), off.toNat = 0x100 + 4 * j → 4 * j < n → regAt n off = .keyWord j) ∧
    ∀ off : Offset, 0x100 + n ≤ off.toNat → regAt n off = .res0

/-- 10_state.md R35: while IDLE, a write of v to offset 0x100 + 4j sets KEY[4j] to v[31:24], KEY[4j+1] to v[23:16],
KEY[4j+2] to v[15:8] and KEY[4j+3] to v[7:0], and leaves every other key byte and every register; while BUSY it is
dropped; the window reads 0 in either phase; the buffer keeps its canonical form. (That it reads 0 also while CLEAR runs
is the model's reading, DEDUCED, log 6.) -/
def Obligations.KeyWindowWriteSetsFourBytes : Prop :=
  ∀ (s : State) (off : Offset) (j : Nat) (v : Word), s.key.wf → off.toNat = 0x100 + 4 * j → 4 * j < s.keyMax →
    (s.busy = true → hostWrite off v s = .next { s with response := none, ovr := true }) ∧
    (s.busy = false → ∃ t, hostWrite off v s = .next t ∧
      t.key.read (4 * j) = v.extractLsb' 24 8 ∧ t.key.read (4 * j + 1) = v.extractLsb' 16 8 ∧
      t.key.read (4 * j + 2) = v.extractLsb' 8 8 ∧ t.key.read (4 * j + 3) = v.extractLsb' 0 8 ∧
      (∀ a, a < 4 * j ∨ 4 * j + 4 ≤ a → t.key.read a = s.key.read a) ∧
      t = { s with response := none, key := t.key } ∧ t.key.wf) ∧
    hostRead off s = .next { s with response := some 0 }

/-- 20_memory.md R61 and 70_reset_and_hazards.md R268: a read of a register the running command writes returns a fresh
unspecified value; every other read returns the stored value, written out per register (10_state.md R22 to R38). It is
what `State.readReg` gives, of which other statements speak. No engine state changes. The model's own: the form of the
free value and its count of draws (DESIGN CHOICE, log 4; the statement holds for every value), that TRUNC and CODE are
then free in all 32 bits (DEDUCED, log 5), and that the key window reads its stored 0 while CLEAR runs (DEDUCED, log 6). -/
def Obligations.HostReadReturnsStoredOrUnspecified : Prop :=
  ∀ (s : State) (off : Offset), off.toNat % 4 = 0 →
    let digest : List Reg := [.digest0, .digest1, .digest2, .digest3, .digest4]
    let unspecified : List Reg := match s.phase with
      | .idle => []
      | .busy (.hmac _ _) => digest
      | .busy (.trunc _) => [.trunc]
      | .busy (.reduce _ _) => [.code]
      | .busy (.hotp _ _ _) => digest ++ [.trunc, .code]
      | .busy (.totp _ _ _ _) => digest ++ [.trunc, .code, .counterLo, .counterHi]
      | .busy .clear =>
        digest ++ [.keyLen, .counterLo, .counterHi, .timeLo, .timeHi, .stepLo, .stepHi, .trunc, .code]
    let stored : Reg → Word
      | .id => 0x484F5450
      | .cap => BitVec.ofNat 32 (s.keyMax % 2 ^ 16)
      | .ctrl => if s.ie then 1 else 0
      | .status => BitVec.ofNat 32 (s.busy.toNat + 2 * s.done.toNat + 4 * s.ovr.toNat + 16 *
          (match s.err with
          | none => 0
          | some .illegalCmd => 1
          | some .invalidDigits => 2
          | some .invalidKeyLen => 3
          | some .invalidStep => 4))
      | .cmd => 0
      | .keyLen => s.keyLen
      | .counterLo => s.counter.extractLsb' 0 32
      | .counterHi => s.counter.extractLsb' 32 32
      | .timeLo => s.time.extractLsb' 0 32
      | .timeHi => s.time.extractLsb' 32 32
      | .stepLo => s.stepSeconds.extractLsb' 0 32
      | .stepHi => s.stepSeconds.extractLsb' 32 32
      | .trunc => s.trunc.setWidth 32
      | .code => s.code
      | .digest0 => s.digest.w0
      | .digest1 => s.digest.w1
      | .digest2 => s.digest.w2
      | .digest3 => s.digest.w3
      | .digest4 => s.digest.w4
      | .keyWord _ => 0
      | .res0 => 0
    (∀ r : Reg, s.readReg r = stored r) ∧
    (regAt s.keyMax off ∈ unspecified →
      hostRead off s = .next { s with response := some (Config.freeRead s.draws), draws := s.draws + 1 }) ∧
    (regAt s.keyMax off ∉ unspecified →
      hostRead off s = .next { s with response := some (stored (regAt s.keyMax off)) })

/-- 20_memory.md R72 and 10_state.md R35: no host read returns anything of the key buffer: with another key buffer every
read returns the same and leaves the same. -/
def Obligations.KeyCannotBeReadBack : Prop :=
  ∀ (s : State) (other : Memory) (off : Offset),
    (∃ t, hostRead off s = .next t ∧ hostRead off { s with key := other } = .next { t with key := other }) ∨
    (∃ r, hostRead off s = .refused r ∧ hostRead off { s with key := other } = .refused r)

/-- 20_memory.md R67: repeating a write of any register but CMD leaves the same state. -/
def Obligations.RepeatingAWriteChangesNothing : Prop :=
  ∀ (s t : State) (off : Offset) (v : Word), s.key.wf → regAt s.keyMax off ≠ .cmd →
    hostWrite off v s = .next t → hostWrite off v t = .next t

/-- 20_memory.md R64 and R65: a host access has a step exactly when it is 32 bits wide and aligned. A reset always has one;
that the two waits, operations of the model's own form (DESIGN CHOICE, log 18), always have one is the model's choice. -/
def Obligations.OnlyAlignedWordAccessesHaveAStep : Prop :=
  ∀ (s : State) (op : HostOp),
    (∃ t, hostOp op s = .next t) ↔
      match op with
      | .read off => off.toNat % 4 = 0
      | .write off _ => off.toNat % 4 = 0
      | .otherWidth _ _ => False
      | .reset => True
      | .wait => True
      | .waitIrq => True

/-- 60_exceptions.md R232: IRQ = CTRL.IE & STATUS.DONE. Completion and rejection raise it if enabled; acceptance, a write of
STATUS with bit 1, a write of CTRL with IE = 0 (which leaves DONE) and reset take it away; a dropped write leaves it. -/
def Obligations.InterruptFollowsEnableAndDone : Prop :=
  ∀ s : State, s.irq = (s.ie && s.done) ∧
    (∀ job t, s.phase = .busy job → engineTurn s = .next t → t.irq = s.ie) ∧
    (∀ w t, s.phase = .idle → hostWrite 0x010 w s = .next t → t.irq = (s.ie && !t.busy)) ∧
    (∀ w t, s.busy = true → hostWrite 0x010 w s = .next t → t.irq = s.irq) ∧
    (∀ v t, v.getLsbD 1 = true → hostWrite 0x00C v s = .next t → t.irq = false) ∧
    (∀ v t, v.getLsbD 0 = false → hostWrite 0x008 v s = .next t → t.irq = false ∧ t.done = s.done) ∧
    ∀ t, hostOp .reset s = .next t → t.irq = false

/-- 30_encoding.md R100, `setkey`: from IDLE, with the host's moves and nothing else, the transactions of `setkey B` leave
KEY[0 .. KEY_LEN-1] = B, the missing bytes of the last word 0x00, and touch nothing but KEY_LEN and the key words 0 to
ceil(L/4)-1. (Steps as the model orders them, logs 2, 3.) -/
def Obligations.SetkeyLoadsTheKey : Prop :=
  ∀ (s : State) (b : List Byte) (rest : List HostOp), s.Inv → s.phase = .idle → s.turns = [] →
    s.host = setkey b ++ rest → b.length ≤ s.keyMax →
    ∃ t : State, Sys2Proof.core.run ((b.length + 3) / 4 + 1) s = .next t ∧
      (List.range t.keyLen.toNat).map t.key.read = b ∧ t.keyLen.toNat = b.length ∧
      (∀ a, b.length ≤ a → a < 4 * ((b.length + 3) / 4) → t.key.read a = 0x00) ∧
      (∀ a, 4 * ((b.length + 3) / 4) ≤ a → t.key.read a = s.key.read a) ∧
      t = { s with host := rest, response := none, key := t.key, keyLen := t.keyLen } ∧ t.key.wf
end

