-- ==== Sys2Proof/Laws/Bytes.lean ====
section
/-! SUPPORT. The big-endian order: lengths, inverses, halves and digest words. -/

namespace Sys2Proof.Machine

@[simp] theorem be_length (n v : Nat) : (be n v).length = n := by
  induction n with
  | zero => rfl
  | succ n ih => simp [be, ih]

@[simp] theorem zeros_length (k : Nat) : (zeros k).length = k := by simp [zeros]

@[simp] theorem xorEach_length (bs : List Byte) (b : Byte) : (xorEach bs b).length = bs.length := by
  simp [xorEach]

/-- Reading on from an accumulated prefix. -/
theorem foldl_be (n v acc : Nat) :
    (be n v).foldl (fun acc b => 256 * acc + b.toNat) acc = acc * 256 ^ n + v % 256 ^ n := by
  induction n generalizing acc with
  | zero => simp [be, Nat.mod_one]
  | succ n ih =>
    have digit : v % 256 ^ (n + 1) = v / 256 ^ n % 256 * 256 ^ n + v % 256 ^ n := by
      rw [Nat.pow_succ, Nat.mod_mul, Nat.mul_comm (256 ^ n) (v / 256 ^ n % 256), Nat.add_comm]
    simp only [be, List.foldl_cons, ih, BitVec.toNat_ofNat, digit]
    ring

/-- BE_n^-1 undoes BE_n on a value of n bytes. -/
theorem beInv_be (n v : Nat) : beInv (be n v) = v % 256 ^ n := by simp [beInv, foldl_be]

/-- A word of a string is the word of the string without its first bytes. -/
theorem wordAt_append_right (as bs : List Byte) (i j : Nat) (h : as.length = 4 * j) (hij : j ≤ i) :
    wordAt (as ++ bs) i = wordAt bs (i - j) := by
  have start : 4 * i = as.length + 4 * (i - j) := by omega
  simp only [wordAt, start, List.drop_append, List.drop_eq_nil_of_le (Nat.le_add_right as.length _)]
  simp

/-- The first word of a string that begins with a serialised word is that word. -/
theorem wordAt_be_append (w : Word) (bs : List Byte) : wordAt (be 4 w.toNat ++ bs) 0 = w := by
  have small : w.toNat % 256 ^ 4 = w.toNat := Nat.mod_eq_of_lt w.isLt
  rw [wordAt, Nat.mul_zero, List.drop_zero, List.take_left' (be_length 4 w.toNat), beInv_be, small,
    BitVec.ofNat_toNat, BitVec.setWidth_eq]

theorem wordAt_be_succ (w : Word) (bs : List Byte) (i : Nat) :
    wordAt (be 4 w.toNat ++ bs) (i + 1) = wordAt bs i := by
  simpa using wordAt_append_right (be 4 w.toNat) bs (i + 1) 1 (by simp) (by omega)

/-- The four bytes of a word, most significant first (20_memory.md R70). -/
theorem be_four (w : Word) :
    be 4 w.toNat = [w.extractLsb' 24 8, w.extractLsb' 16 8, w.extractLsb' 8 8, w.extractLsb' 0 8] := by
  have byte : ∀ n, BitVec.ofNat 8 (w.toNat / 256 ^ n) = w.extractLsb' (8 * n) 8 := fun n => by
    apply BitVec.eq_of_toNat_eq
    simp [BitVec.extractLsb'_toNat, Nat.shiftRight_eq_div_pow, Nat.pow_mul]
  simp only [be, byte]

/-- BE_4 undoes BE_4^-1 on four bytes. -/
theorem be_beInv_four (a b c d : Byte) : be 4 (BitVec.ofNat 32 (beInv [a, b, c, d])).toNat = [a, b, c, d] := by
  have := a.isLt
  have := b.isLt
  have := c.isLt
  have := d.isLt
  simp only [be, beInv, List.foldl, BitVec.toNat_ofNat]
  congr 1 <;> (try congr 1) <;> (try congr 1) <;> (try congr 1)
  all_goals
    apply BitVec.eq_of_toNat_eq
    simp only [BitVec.toNat_ofNat]
    omega

@[simp] theorem Digest.bytes_length (d : Digest) : d.bytes.length = 20 := by simp [Digest.bytes]

/-- The digest words read back from the digest's bytes (10_state.md R36, 20_memory.md R70). -/
@[simp] theorem Digest.ofBytes_bytes (d : Digest) : Digest.ofBytes d.bytes = d := by
  have last : wordAt (be 4 d.w4.toNat) 0 = d.w4 := by simpa using wordAt_be_append d.w4 []
  simp [Digest.ofBytes, Digest.bytes, List.append_assoc, wordAt_be_append, wordAt_be_succ, last]

@[simp] theorem loHalf_joinHalves (hi lo : Word) : loHalf (joinHalves hi lo) = lo :=
  BitVec.extractLsb'_append_eq_right (a := hi) (b := lo)

@[simp] theorem hiHalf_joinHalves (hi lo : Word) : hiHalf (joinHalves hi lo) = hi :=
  BitVec.extractLsb'_append_eq_left (a := hi) (b := lo)

/-- A 64-bit register is its two halves. -/
@[simp] theorem joinHalves_halves (v : Dword) : joinHalves (hiHalf v) (loHalf v) = v := by
  apply BitVec.eq_of_toNat_eq
  have h : (joinHalves (hiHalf v) (loHalf v)).toNat = (hiHalf v).toNat <<< 32 ||| (loHalf v).toNat :=
    BitVec.toNat_append (hiHalf v) (loHalf v)
  have := v.isLt
  rw [h, ← Nat.shiftLeft_add_eq_or_of_lt (loHalf v).isLt]
  simp only [hiHalf, loHalf, BitVec.extractLsb'_toNat, Nat.shiftLeft_eq, Nat.shiftRight_eq_div_pow]
  omega

@[simp] theorem loHalf_setLoHalf (v : Dword) (x : Word) : loHalf (setLoHalf v x) = x := by simp [setLoHalf]

@[simp] theorem hiHalf_setLoHalf (v : Dword) (x : Word) : hiHalf (setLoHalf v x) = hiHalf v := by
  simp [setLoHalf]

@[simp] theorem hiHalf_setHiHalf (v : Dword) (x : Word) : hiHalf (setHiHalf v x) = x := by simp [setHiHalf]

@[simp] theorem loHalf_setHiHalf (v : Dword) (x : Word) : loHalf (setHiHalf v x) = loHalf v := by
  simp [setHiHalf]

end Sys2Proof.Machine
end

