-- ==== Sys2Proof/Laws/Decode.lean ====
section
/-! SUPPORT. The fields of an encoded command word. -/

namespace Sys2Proof

theorem rsvField_toNat (w : Word) : (rsvField w).toNat = w.toNat / 256 := by
  have := w.isLt
  simp only [rsvField, BitVec.extractLsb'_toNat, Nat.shiftRight_eq_div_pow]
  omega

theorem digField_toNat (w : Word) : (digField w).toNat = w.toNat / 16 % 16 := by
  simp [digField, BitVec.extractLsb'_toNat, Nat.shiftRight_eq_div_pow]

theorem opField_toNat (w : Word) : (opField w).toNat = w.toNat % 16 := by
  simp [opField, BitVec.extractLsb'_toNat]

/-- (d << 4) | op as a number, for a d the field holds. -/
theorem digitsWord_toNat {d : Nat} {op : Word} (hd : d ≤ 15) (hop : op.toNat < 16) :
    (digitsWord d op).toNat = 16 * d + op.toNat := by
  have shifted : (BitVec.ofNat 32 d <<< 4).toNat = d <<< 4 := by
    simp only [BitVec.toNat_shiftLeft, BitVec.toNat_ofNat, Nat.shiftLeft_eq]
    omega
  rw [digitsWord, BitVec.toNat_or, shifted, ← Nat.shiftLeft_add_eq_or_of_lt (by omega)]
  omega

end Sys2Proof
end

