-- ==== Sys2Proof/Laws/Memory.lean ====
section
/-! SUPPORT. The key buffer: reads after writes, and the canonical form that every write keeps. -/

namespace Sys2Proof.Machine

theorem Memory.wf_nil : Memory.wf [] := by simp [Memory.wf]

/-- The tail of a canonical buffer is canonical, and its indexes lie above the head's. -/
theorem Memory.wf_cons {b : Nat} {w : Byte} {m : Memory} :
    Memory.wf ((b, w) :: m) ↔ (∀ c ∈ m, b < c.1) ∧ w ≠ Memory.unlisted ∧ m.wf := by
  simp only [Memory.wf, List.pairwise_cons, List.mem_cons, forall_eq_or_imp]
  tauto

/-- An index below every listed one reads as unlisted. -/
theorem Memory.read_of_lt {m : Memory} {a : Nat} (h : ∀ c ∈ m, a < c.1) : m.read a = Memory.unlisted := by
  induction m with
  | nil => rfl
  | cons c m ih =>
    have hc := h c (by simp)
    simp [Memory.read, Nat.ne_of_lt hc, ih fun d hd => h d (by simp [hd])]

/-- The indexes a write leaves are old ones or the one written. -/
theorem Memory.index_of_mem_write {m : Memory} {a : Nat} {v : Byte} {c : Host.Cell} (h : c ∈ m.write a v) :
    c.1 = a ∨ c ∈ m := by
  induction m with
  | nil =>
    simp only [Memory.write] at h
    split at h <;> simp_all
  | cons d m ih =>
    simp only [Memory.write] at h
    split at h
    · split at h
      · exact .inr h
      · exact (List.mem_cons.mp h).imp (fun e => by simp [e]) id
    · split at h
      · split at h
        · exact .inr (List.mem_cons_of_mem d h)
        · exact (List.mem_cons.mp h).imp (fun e => by simp [e]) (List.mem_cons_of_mem d)
      · rcases List.mem_cons.mp h with h | h
        · simp [h]
        · rcases ih h with h | h <;> simp [h]

/-- A write keeps the canonical form. -/
theorem Memory.write_wf {m : Memory} (h : m.wf) (a : Nat) (v : Byte) : (m.write a v).wf := by
  induction m with
  | nil =>
    simp only [Memory.write]
    split <;> simp_all [Memory.wf]
  | cons c m ih =>
    obtain ⟨above, listed, tail⟩ := Memory.wf_cons.mp h
    simp only [Memory.write]
    split
    · split
      · exact h
      · exact Memory.wf_cons.mpr ⟨fun d hd => by
          rcases List.mem_cons.mp hd with rfl | hd
          · assumption
          · have := above d hd
            omega, by assumption, h⟩
    · split
      · split
        · exact tail
        · exact Memory.wf_cons.mpr ⟨fun d hd => by have := above d hd; omega, by assumption, tail⟩
      · refine Memory.wf_cons.mpr ⟨fun d hd => ?_, listed, ih tail⟩
        rcases Memory.index_of_mem_write hd with e | hd
        · omega
        · exact above d hd

/-- The byte written reads back. -/
theorem Memory.read_write_same {m : Memory} (h : m.wf) (a : Nat) (v : Byte) : (m.write a v).read a = v := by
  induction m with
  | nil =>
    simp only [Memory.write]
    split <;> simp_all [Memory.read]
  | cons c m ih =>
    obtain ⟨above, -, tail⟩ := Memory.wf_cons.mp h
    simp only [Memory.write]
    split
    · split
      · rename_i lt zero
        rw [zero]
        exact Memory.read_of_lt fun d hd => by
          rcases List.mem_cons.mp hd with rfl | hd
          · exact lt
          · have := above d hd
            omega
      · simp [Memory.read]
    · split
      · rename_i eq
        split
        · rename_i zero
          rw [zero]
          exact Memory.read_of_lt fun d hd => by have := above d hd; omega
        · simp [Memory.read]
      · rename_i ne
        simp [Memory.read, ne, ih tail]

/-- Every other byte reads as before. -/
theorem Memory.read_write_other {m : Memory} {a b : Nat} (v : Byte) (ne : b ≠ a) :
    (m.write a v).read b = m.read b := by
  induction m with
  | nil =>
    simp only [Memory.write]
    split <;> simp [Memory.read, ne]
  | cons c m ih =>
    simp only [Memory.write]
    split
    · split <;> simp [Memory.read, ne]
    · split
      · rename_i eq
        split <;> simp [Memory.read, ← eq, ne]
      · simp [Memory.read, ih]

theorem Memory.writeBytes_wf {m : Memory} (h : m.wf) (a : Nat) (vs : List Byte) : (m.writeBytes a vs).wf := by
  induction vs generalizing m a with
  | nil => exact h
  | cons v vs ih => exact ih (Memory.write_wf h a v) (a + 1)

/-- A run of bytes written at `a` leaves every byte outside it as it was. -/
theorem Memory.read_writeBytes_outside {m : Memory} {a b : Nat} (vs : List Byte)
    (out : b < a ∨ a + vs.length ≤ b) : (m.writeBytes a vs).read b = m.read b := by
  induction vs generalizing m a with
  | nil => rfl
  | cons v vs ih =>
    simp only [List.length_cons] at out
    rw [Memory.writeBytes, ih (by omega), Memory.read_write_other v (by omega)]

/-- Byte `i` of a run written at `a` reads back at `a + i`. -/
theorem Memory.read_writeBytes_inside {m : Memory} (h : m.wf) (a : Nat) {vs : List Byte} {i : Nat}
    (inside : i < vs.length) : (m.writeBytes a vs).read (a + i) = byteAt vs i := by
  induction vs generalizing m a i with
  | nil => simp at inside
  | cons v vs ih =>
    cases i with
    | zero =>
      rw [Memory.writeBytes, Memory.read_writeBytes_outside vs (by omega), Nat.add_zero,
        Memory.read_write_same h]
      rfl
    | succ i =>
      simp only [List.length_cons] at inside
      have := ih (Memory.write_wf h a v) (a + 1) (i := i) (by omega)
      rw [Memory.writeBytes, show a + (i + 1) = a + 1 + i by omega, this]
      rfl

/-- A run of bytes written below `n` keeps every index below `n`. -/
theorem Memory.writeBytes_inside {m : Memory} {n : Nat} (h : ∀ c ∈ m, c.1 < n) {a : Nat} {vs : List Byte}
    (fits : a + vs.length ≤ n) : ∀ c ∈ m.writeBytes a vs, c.1 < n := by
  induction vs generalizing m a with
  | nil => exact h
  | cons v vs ih =>
    simp only [List.length_cons] at fits
    refine ih (fun c hc => ?_) (a := a + 1) (by omega)
    rcases Memory.index_of_mem_write hc with e | hc
    · omega
    · exact h c hc

/-- Writing the byte that stands there changes nothing. -/
theorem Memory.write_read {m : Memory} (h : m.wf) (a : Nat) : m.write a (m.read a) = m := by
  induction m with
  | nil => simp [Memory.write, Memory.read]
  | cons c m ih =>
    obtain ⟨above, listed, tail⟩ := Memory.wf_cons.mp h
    simp only [Memory.write, Memory.read]
    by_cases lt : a < c.1
    · have ne : a ≠ c.1 := by omega
      have low : Memory.read m a = Memory.unlisted := Memory.read_of_lt fun d hd => by have := above d hd; omega
      simp [lt, ne, low]
    · by_cases eq : a = c.1
      · simp [eq, listed]
      · simp [lt, eq, ih tail]

/-- Two canonical buffers that read alike everywhere are equal. -/
theorem Memory.ext_read {m n : Memory} (hm : m.wf) (hn : n.wf) (h : ∀ a, m.read a = n.read a) : m = n := by
  induction m generalizing n with
  | nil =>
    cases n with
    | nil => rfl
    | cons d n =>
      obtain ⟨-, listed, -⟩ := Memory.wf_cons.mp hn
      have := h d.1
      simp [Memory.read] at this
      exact absurd this.symm listed
  | cons c m ih =>
    obtain ⟨aboveM, listedM, tailM⟩ := Memory.wf_cons.mp hm
    cases n with
    | nil =>
      have := h c.1
      simp [Memory.read] at this
      exact absurd this listedM
    | cons d n =>
      obtain ⟨aboveN, listedN, tailN⟩ := Memory.wf_cons.mp hn
      have headC := h c.1
      have headD := h d.1
      simp only [Memory.read, if_true] at headC headD
      have sameIndex : c.1 = d.1 := by
        rcases Nat.lt_trichotomy c.1 d.1 with lt | eq | gt
        · rw [if_neg (by omega), Memory.read_of_lt fun e he => by have := aboveN e he; omega] at headC
          exact absurd headC listedM
        · exact eq
        · rw [if_neg (by omega), Memory.read_of_lt fun e he => by have := aboveM e he; omega] at headD
          exact absurd headD.symm listedN
      have sameByte : c.2 = d.2 := by simpa [sameIndex] using headC
      have tails : m = n := ih tailM tailN fun a => by
        by_cases eq : a = c.1
        · rw [Memory.read_of_lt fun e he => by have := aboveM e he; omega,
            Memory.read_of_lt fun e he => by have := aboveN e he; omega]
        · have := h a
          simpa [Memory.read, eq, ← sameIndex] using this
      rw [tails, Prod.ext sameIndex sameByte]

/-- Writing the same run twice is writing it once. -/
theorem Memory.writeBytes_twice {m : Memory} (h : m.wf) (a : Nat) (vs : List Byte) :
    (m.writeBytes a vs).writeBytes a vs = m.writeBytes a vs := by
  have once := Memory.writeBytes_wf h a vs
  refine Memory.ext_read (Memory.writeBytes_wf once a vs) once fun b => ?_
  by_cases out : b < a ∨ a + vs.length ≤ b
  · rw [Memory.read_writeBytes_outside _ out]
  · obtain ⟨i, rfl⟩ : ∃ i, b = a + i := ⟨b - a, by omega⟩
    rw [Memory.read_writeBytes_inside once _ (by omega), Memory.read_writeBytes_inside h _ (by omega)]

/-- The four bytes a key-window write stores, and every byte it leaves (10_state.md R35). -/
theorem State.read_writeKeyWord {s : State} (h : s.key.wf) (j : Nat) (v : Word) (a : Nat) :
    (s.writeKeyWord j v).key.read a
      = if 4 * j ≤ a ∧ a < 4 * j + 4 then byteAt (be 4 v.toNat) (a - 4 * j) else s.key.read a := by
  split
  · rename_i inside
    have := Memory.read_writeBytes_inside h (4 * j) (vs := be 4 v.toNat) (i := a - 4 * j)
      (by simp; omega)
    rwa [Nat.add_sub_cancel' inside.1] at this
  · exact Memory.read_writeBytes_outside _ (by simp; omega)

end Sys2Proof.Machine
end

