-- ==== Sys2Proof/Laws/State.lean ====
section
/-! SUPPORT. What each shared update of the state does to each field, so that no later proof unfolds a record update. -/

namespace Sys2Proof.Machine

/-! Rejection. -/

@[simp] theorem State.reject_keyMax (e : CmdError) (s : State) : (s.reject e).keyMax = s.keyMax := rfl
@[simp] theorem State.reject_ie (e : CmdError) (s : State) : (s.reject e).ie = s.ie := rfl
@[simp] theorem State.reject_done (e : CmdError) (s : State) : (s.reject e).done = true := rfl
@[simp] theorem State.reject_ovr (e : CmdError) (s : State) : (s.reject e).ovr = s.ovr := rfl
@[simp] theorem State.reject_err (e : CmdError) (s : State) : (s.reject e).err = some e := rfl
@[simp] theorem State.reject_keyLen (e : CmdError) (s : State) : (s.reject e).keyLen = s.keyLen := rfl
@[simp] theorem State.reject_counter (e : CmdError) (s : State) : (s.reject e).counter = s.counter := rfl
@[simp] theorem State.reject_time (e : CmdError) (s : State) : (s.reject e).time = s.time := rfl
@[simp] theorem State.reject_stepSeconds (e : CmdError) (s : State) : (s.reject e).stepSeconds = s.stepSeconds := rfl
@[simp] theorem State.reject_digest (e : CmdError) (s : State) : (s.reject e).digest = s.digest := rfl
@[simp] theorem State.reject_trunc (e : CmdError) (s : State) : (s.reject e).trunc = s.trunc := rfl
@[simp] theorem State.reject_code (e : CmdError) (s : State) : (s.reject e).code = s.code := rfl
@[simp] theorem State.reject_key (e : CmdError) (s : State) : (s.reject e).key = s.key := rfl
@[simp] theorem State.reject_phase (e : CmdError) (s : State) : (s.reject e).phase = s.phase := rfl
@[simp] theorem State.reject_host (e : CmdError) (s : State) : (s.reject e).host = s.host := rfl
@[simp] theorem State.reject_turns (e : CmdError) (s : State) : (s.reject e).turns = s.turns := rfl
@[simp] theorem State.reject_response (e : CmdError) (s : State) : (s.reject e).response = s.response := rfl
@[simp] theorem State.reject_draws (e : CmdError) (s : State) : (s.reject e).draws = s.draws := rfl

/-! Acceptance. -/

@[simp] theorem State.accept_keyMax (job : Job) (s : State) : (s.accept job).keyMax = s.keyMax := rfl
@[simp] theorem State.accept_ie (job : Job) (s : State) : (s.accept job).ie = s.ie := rfl
@[simp] theorem State.accept_done (job : Job) (s : State) : (s.accept job).done = false := rfl
@[simp] theorem State.accept_ovr (job : Job) (s : State) : (s.accept job).ovr = s.ovr := rfl
@[simp] theorem State.accept_err (job : Job) (s : State) : (s.accept job).err = none := rfl
@[simp] theorem State.accept_keyLen (job : Job) (s : State) : (s.accept job).keyLen = s.keyLen := rfl
@[simp] theorem State.accept_counter (job : Job) (s : State) : (s.accept job).counter = s.counter := rfl
@[simp] theorem State.accept_time (job : Job) (s : State) : (s.accept job).time = s.time := rfl
@[simp] theorem State.accept_stepSeconds (job : Job) (s : State) : (s.accept job).stepSeconds = s.stepSeconds := rfl
@[simp] theorem State.accept_digest (job : Job) (s : State) : (s.accept job).digest = s.digest := rfl
@[simp] theorem State.accept_trunc (job : Job) (s : State) : (s.accept job).trunc = s.trunc := rfl
@[simp] theorem State.accept_code (job : Job) (s : State) : (s.accept job).code = s.code := rfl
@[simp] theorem State.accept_key (job : Job) (s : State) : (s.accept job).key = s.key := rfl
@[simp] theorem State.accept_phase (job : Job) (s : State) : (s.accept job).phase = .busy job := rfl
@[simp] theorem State.accept_host (job : Job) (s : State) : (s.accept job).host = s.host := rfl
@[simp] theorem State.accept_turns (job : Job) (s : State) : (s.accept job).turns = s.turns := rfl
@[simp] theorem State.accept_response (job : Job) (s : State) : (s.accept job).response = s.response := rfl
@[simp] theorem State.accept_draws (job : Job) (s : State) : (s.accept job).draws = s.draws := rfl

/-! The end of a completion. -/

@[simp] theorem State.finish_keyMax (s : State) : s.finish.keyMax = s.keyMax := rfl
@[simp] theorem State.finish_ie (s : State) : s.finish.ie = s.ie := rfl
@[simp] theorem State.finish_done (s : State) : s.finish.done = true := rfl
@[simp] theorem State.finish_ovr (s : State) : s.finish.ovr = s.ovr := rfl
@[simp] theorem State.finish_err (s : State) : s.finish.err = s.err := rfl
@[simp] theorem State.finish_keyLen (s : State) : s.finish.keyLen = s.keyLen := rfl
@[simp] theorem State.finish_counter (s : State) : s.finish.counter = s.counter := rfl
@[simp] theorem State.finish_time (s : State) : s.finish.time = s.time := rfl
@[simp] theorem State.finish_stepSeconds (s : State) : s.finish.stepSeconds = s.stepSeconds := rfl
@[simp] theorem State.finish_digest (s : State) : s.finish.digest = s.digest := rfl
@[simp] theorem State.finish_trunc (s : State) : s.finish.trunc = s.trunc := rfl
@[simp] theorem State.finish_code (s : State) : s.finish.code = s.code := rfl
@[simp] theorem State.finish_key (s : State) : s.finish.key = s.key := rfl
@[simp] theorem State.finish_phase (s : State) : s.finish.phase = .idle := rfl
@[simp] theorem State.finish_host (s : State) : s.finish.host = s.host := rfl
@[simp] theorem State.finish_turns (s : State) : s.finish.turns = s.turns := rfl
@[simp] theorem State.finish_response (s : State) : s.finish.response = s.response := rfl
@[simp] theorem State.finish_draws (s : State) : s.finish.draws = s.draws := rfl

/-! A write dropped while BUSY. -/

@[simp] theorem State.dropWrite_keyMax (s : State) : s.dropWrite.keyMax = s.keyMax := rfl
@[simp] theorem State.dropWrite_ie (s : State) : s.dropWrite.ie = s.ie := rfl
@[simp] theorem State.dropWrite_done (s : State) : s.dropWrite.done = s.done := rfl
@[simp] theorem State.dropWrite_ovr (s : State) : s.dropWrite.ovr = true := rfl
@[simp] theorem State.dropWrite_err (s : State) : s.dropWrite.err = s.err := rfl
@[simp] theorem State.dropWrite_keyLen (s : State) : s.dropWrite.keyLen = s.keyLen := rfl
@[simp] theorem State.dropWrite_counter (s : State) : s.dropWrite.counter = s.counter := rfl
@[simp] theorem State.dropWrite_time (s : State) : s.dropWrite.time = s.time := rfl
@[simp] theorem State.dropWrite_stepSeconds (s : State) : s.dropWrite.stepSeconds = s.stepSeconds := rfl
@[simp] theorem State.dropWrite_digest (s : State) : s.dropWrite.digest = s.digest := rfl
@[simp] theorem State.dropWrite_trunc (s : State) : s.dropWrite.trunc = s.trunc := rfl
@[simp] theorem State.dropWrite_code (s : State) : s.dropWrite.code = s.code := rfl
@[simp] theorem State.dropWrite_key (s : State) : s.dropWrite.key = s.key := rfl
@[simp] theorem State.dropWrite_phase (s : State) : s.dropWrite.phase = s.phase := rfl
@[simp] theorem State.dropWrite_host (s : State) : s.dropWrite.host = s.host := rfl
@[simp] theorem State.dropWrite_turns (s : State) : s.dropWrite.turns = s.turns := rfl
@[simp] theorem State.dropWrite_response (s : State) : s.dropWrite.response = s.response := rfl
@[simp] theorem State.dropWrite_draws (s : State) : s.dropWrite.draws = s.draws := rfl

/-! A write of CTRL. -/

@[simp] theorem State.writeCtrl_keyMax (v : Word) (s : State) : (s.writeCtrl v).keyMax = s.keyMax := rfl
@[simp] theorem State.writeCtrl_ie (v : Word) (s : State) : (s.writeCtrl v).ie = v.getLsbD 0 := rfl
@[simp] theorem State.writeCtrl_done (v : Word) (s : State) : (s.writeCtrl v).done = s.done := rfl
@[simp] theorem State.writeCtrl_ovr (v : Word) (s : State) : (s.writeCtrl v).ovr = s.ovr := rfl
@[simp] theorem State.writeCtrl_err (v : Word) (s : State) : (s.writeCtrl v).err = s.err := rfl
@[simp] theorem State.writeCtrl_keyLen (v : Word) (s : State) : (s.writeCtrl v).keyLen = s.keyLen := rfl
@[simp] theorem State.writeCtrl_counter (v : Word) (s : State) : (s.writeCtrl v).counter = s.counter := rfl
@[simp] theorem State.writeCtrl_time (v : Word) (s : State) : (s.writeCtrl v).time = s.time := rfl
@[simp] theorem State.writeCtrl_stepSeconds (v : Word) (s : State) : (s.writeCtrl v).stepSeconds = s.stepSeconds := rfl
@[simp] theorem State.writeCtrl_digest (v : Word) (s : State) : (s.writeCtrl v).digest = s.digest := rfl
@[simp] theorem State.writeCtrl_trunc (v : Word) (s : State) : (s.writeCtrl v).trunc = s.trunc := rfl
@[simp] theorem State.writeCtrl_code (v : Word) (s : State) : (s.writeCtrl v).code = s.code := rfl
@[simp] theorem State.writeCtrl_key (v : Word) (s : State) : (s.writeCtrl v).key = s.key := rfl
@[simp] theorem State.writeCtrl_phase (v : Word) (s : State) : (s.writeCtrl v).phase = s.phase := rfl
@[simp] theorem State.writeCtrl_host (v : Word) (s : State) : (s.writeCtrl v).host = s.host := rfl
@[simp] theorem State.writeCtrl_turns (v : Word) (s : State) : (s.writeCtrl v).turns = s.turns := rfl
@[simp] theorem State.writeCtrl_response (v : Word) (s : State) : (s.writeCtrl v).response = s.response := rfl
@[simp] theorem State.writeCtrl_draws (v : Word) (s : State) : (s.writeCtrl v).draws = s.draws := rfl

/-! A write of STATUS. -/

@[simp] theorem State.writeStatus_keyMax (v : Word) (s : State) : (s.writeStatus v).keyMax = s.keyMax := rfl
@[simp] theorem State.writeStatus_ie (v : Word) (s : State) : (s.writeStatus v).ie = s.ie := rfl
@[simp] theorem State.writeStatus_done (v : Word) (s : State) : (s.writeStatus v).done = (s.done && !v.getLsbD 1) := rfl
@[simp] theorem State.writeStatus_ovr (v : Word) (s : State) : (s.writeStatus v).ovr = (s.ovr && !v.getLsbD 2) := rfl
@[simp] theorem State.writeStatus_err (v : Word) (s : State) : (s.writeStatus v).err = s.err := rfl
@[simp] theorem State.writeStatus_keyLen (v : Word) (s : State) : (s.writeStatus v).keyLen = s.keyLen := rfl
@[simp] theorem State.writeStatus_counter (v : Word) (s : State) : (s.writeStatus v).counter = s.counter := rfl
@[simp] theorem State.writeStatus_time (v : Word) (s : State) : (s.writeStatus v).time = s.time := rfl
@[simp] theorem State.writeStatus_stepSeconds (v : Word) (s : State) : (s.writeStatus v).stepSeconds = s.stepSeconds := rfl
@[simp] theorem State.writeStatus_digest (v : Word) (s : State) : (s.writeStatus v).digest = s.digest := rfl
@[simp] theorem State.writeStatus_trunc (v : Word) (s : State) : (s.writeStatus v).trunc = s.trunc := rfl
@[simp] theorem State.writeStatus_code (v : Word) (s : State) : (s.writeStatus v).code = s.code := rfl
@[simp] theorem State.writeStatus_key (v : Word) (s : State) : (s.writeStatus v).key = s.key := rfl
@[simp] theorem State.writeStatus_phase (v : Word) (s : State) : (s.writeStatus v).phase = s.phase := rfl
@[simp] theorem State.writeStatus_host (v : Word) (s : State) : (s.writeStatus v).host = s.host := rfl
@[simp] theorem State.writeStatus_turns (v : Word) (s : State) : (s.writeStatus v).turns = s.turns := rfl
@[simp] theorem State.writeStatus_response (v : Word) (s : State) : (s.writeStatus v).response = s.response := rfl
@[simp] theorem State.writeStatus_draws (v : Word) (s : State) : (s.writeStatus v).draws = s.draws := rfl

/-! A write of a key-window word. -/

@[simp] theorem State.writeKeyWord_keyMax (j : Nat) (v : Word) (s : State) : (s.writeKeyWord j v).keyMax = s.keyMax := rfl
@[simp] theorem State.writeKeyWord_ie (j : Nat) (v : Word) (s : State) : (s.writeKeyWord j v).ie = s.ie := rfl
@[simp] theorem State.writeKeyWord_done (j : Nat) (v : Word) (s : State) : (s.writeKeyWord j v).done = s.done := rfl
@[simp] theorem State.writeKeyWord_ovr (j : Nat) (v : Word) (s : State) : (s.writeKeyWord j v).ovr = s.ovr := rfl
@[simp] theorem State.writeKeyWord_err (j : Nat) (v : Word) (s : State) : (s.writeKeyWord j v).err = s.err := rfl
@[simp] theorem State.writeKeyWord_keyLen (j : Nat) (v : Word) (s : State) : (s.writeKeyWord j v).keyLen = s.keyLen := rfl
@[simp] theorem State.writeKeyWord_counter (j : Nat) (v : Word) (s : State) : (s.writeKeyWord j v).counter = s.counter := rfl
@[simp] theorem State.writeKeyWord_time (j : Nat) (v : Word) (s : State) : (s.writeKeyWord j v).time = s.time := rfl
@[simp] theorem State.writeKeyWord_stepSeconds (j : Nat) (v : Word) (s : State) : (s.writeKeyWord j v).stepSeconds = s.stepSeconds := rfl
@[simp] theorem State.writeKeyWord_digest (j : Nat) (v : Word) (s : State) : (s.writeKeyWord j v).digest = s.digest := rfl
@[simp] theorem State.writeKeyWord_trunc (j : Nat) (v : Word) (s : State) : (s.writeKeyWord j v).trunc = s.trunc := rfl
@[simp] theorem State.writeKeyWord_code (j : Nat) (v : Word) (s : State) : (s.writeKeyWord j v).code = s.code := rfl
@[simp] theorem State.writeKeyWord_key (j : Nat) (v : Word) (s : State) : (s.writeKeyWord j v).key = s.key.writeBytes (4 * j) (be 4 v.toNat) := rfl
@[simp] theorem State.writeKeyWord_phase (j : Nat) (v : Word) (s : State) : (s.writeKeyWord j v).phase = s.phase := rfl
@[simp] theorem State.writeKeyWord_host (j : Nat) (v : Word) (s : State) : (s.writeKeyWord j v).host = s.host := rfl
@[simp] theorem State.writeKeyWord_turns (j : Nat) (v : Word) (s : State) : (s.writeKeyWord j v).turns = s.turns := rfl
@[simp] theorem State.writeKeyWord_response (j : Nat) (v : Word) (s : State) : (s.writeKeyWord j v).response = s.response := rfl
@[simp] theorem State.writeKeyWord_draws (j : Nat) (v : Word) (s : State) : (s.writeKeyWord j v).draws = s.draws := rfl

/-! The writes HOTP and TOTP share. -/

@[simp] theorem State.writeOtp_keyMax (k : List Byte) (c : Dword) (d : Nat) (s : State) : (s.writeOtp k c d).keyMax = s.keyMax := rfl
@[simp] theorem State.writeOtp_ie (k : List Byte) (c : Dword) (d : Nat) (s : State) : (s.writeOtp k c d).ie = s.ie := rfl
@[simp] theorem State.writeOtp_done (k : List Byte) (c : Dword) (d : Nat) (s : State) : (s.writeOtp k c d).done = s.done := rfl
@[simp] theorem State.writeOtp_ovr (k : List Byte) (c : Dword) (d : Nat) (s : State) : (s.writeOtp k c d).ovr = s.ovr := rfl
@[simp] theorem State.writeOtp_err (k : List Byte) (c : Dword) (d : Nat) (s : State) : (s.writeOtp k c d).err = s.err := rfl
@[simp] theorem State.writeOtp_keyLen (k : List Byte) (c : Dword) (d : Nat) (s : State) : (s.writeOtp k c d).keyLen = s.keyLen := rfl
@[simp] theorem State.writeOtp_counter (k : List Byte) (c : Dword) (d : Nat) (s : State) : (s.writeOtp k c d).counter = s.counter := rfl
@[simp] theorem State.writeOtp_time (k : List Byte) (c : Dword) (d : Nat) (s : State) : (s.writeOtp k c d).time = s.time := rfl
@[simp] theorem State.writeOtp_stepSeconds (k : List Byte) (c : Dword) (d : Nat) (s : State) : (s.writeOtp k c d).stepSeconds = s.stepSeconds := rfl
@[simp] theorem State.writeOtp_digest (k : List Byte) (c : Dword) (d : Nat) (s : State) : (s.writeOtp k c d).digest = Digest.ofBytes (counterHmac k c) := rfl
@[simp] theorem State.writeOtp_trunc (k : List Byte) (c : Dword) (d : Nat) (s : State) : (s.writeOtp k c d).trunc = dynTruncate (counterHmac k c) := rfl
@[simp] theorem State.writeOtp_code (k : List Byte) (c : Dword) (d : Nat) (s : State) : (s.writeOtp k c d).code = hotpCode k c d := rfl
@[simp] theorem State.writeOtp_key (k : List Byte) (c : Dword) (d : Nat) (s : State) : (s.writeOtp k c d).key = s.key := rfl
@[simp] theorem State.writeOtp_phase (k : List Byte) (c : Dword) (d : Nat) (s : State) : (s.writeOtp k c d).phase = s.phase := rfl
@[simp] theorem State.writeOtp_host (k : List Byte) (c : Dword) (d : Nat) (s : State) : (s.writeOtp k c d).host = s.host := rfl
@[simp] theorem State.writeOtp_turns (k : List Byte) (c : Dword) (d : Nat) (s : State) : (s.writeOtp k c d).turns = s.turns := rfl
@[simp] theorem State.writeOtp_response (k : List Byte) (c : Dword) (d : Nat) (s : State) : (s.writeOtp k c d).response = s.response := rfl
@[simp] theorem State.writeOtp_draws (k : List Byte) (c : Dword) (d : Nat) (s : State) : (s.writeOtp k c d).draws = s.draws := rfl

/-! Reset. -/

@[simp] theorem State.hardReset_keyMax (s : State) : s.hardReset.keyMax = s.keyMax := rfl
@[simp] theorem State.hardReset_ie (s : State) : s.hardReset.ie = false := rfl
@[simp] theorem State.hardReset_done (s : State) : s.hardReset.done = false := rfl
@[simp] theorem State.hardReset_ovr (s : State) : s.hardReset.ovr = false := rfl
@[simp] theorem State.hardReset_err (s : State) : s.hardReset.err = none := rfl
@[simp] theorem State.hardReset_keyLen (s : State) : s.hardReset.keyLen = 0 := rfl
@[simp] theorem State.hardReset_counter (s : State) : s.hardReset.counter = 0 := rfl
@[simp] theorem State.hardReset_time (s : State) : s.hardReset.time = 0 := rfl
@[simp] theorem State.hardReset_stepSeconds (s : State) : s.hardReset.stepSeconds = 30 := rfl
@[simp] theorem State.hardReset_digest (s : State) : s.hardReset.digest = ⟨0, 0, 0, 0, 0⟩ := rfl
@[simp] theorem State.hardReset_trunc (s : State) : s.hardReset.trunc = 0 := rfl
@[simp] theorem State.hardReset_code (s : State) : s.hardReset.code = 0 := rfl
@[simp] theorem State.hardReset_key (s : State) : s.hardReset.key = [] := rfl
@[simp] theorem State.hardReset_phase (s : State) : s.hardReset.phase = .idle := rfl
@[simp] theorem State.hardReset_host (s : State) : s.hardReset.host = s.host := rfl
@[simp] theorem State.hardReset_turns (s : State) : s.hardReset.turns = s.turns := rfl
@[simp] theorem State.hardReset_response (s : State) : s.hardReset.response = none := rfl
@[simp] theorem State.hardReset_draws (s : State) : s.hardReset.draws = s.draws := rfl

/-! STATUS.BUSY is the phase (10_state.md R26). -/

theorem State.busy_of_idle {s : State} (h : s.phase = .idle) : s.busy = false := by simp [State.busy, h]

theorem State.busy_of_busy {s : State} {job : Job} (h : s.phase = .busy job) : s.busy = true := by
  simp [State.busy, h]

theorem State.busy_iff {s : State} : s.busy = true ↔ ∃ job, s.phase = .busy job := by
  cases h : s.phase <;> simp [State.busy, h]

theorem State.not_busy_iff {s : State} : s.busy = false ↔ s.phase = .idle := by
  cases h : s.phase <;> simp [State.busy, h]

/-- BUSY depends on the phase alone. -/
theorem State.busy_congr {s t : State} (h : t.phase = s.phase) : t.busy = s.busy := by simp [State.busy, h]

@[simp] theorem State.busy_accept (job : Job) (s : State) : (s.accept job).busy = true := rfl

@[simp] theorem State.busy_finish (s : State) : s.finish.busy = false := rfl

@[simp] theorem State.busy_reject (e : CmdError) (s : State) : (s.reject e).busy = s.busy := rfl

@[simp] theorem State.busy_dropWrite (s : State) : s.dropWrite.busy = s.busy := rfl

@[simp] theorem State.busy_hardReset (s : State) : s.hardReset.busy = false := rfl

/-! The words the host reads. -/

/-- STATUS as a number of its fields (10_state.md R25). -/
theorem State.statusWord_toNat (s : State) :
    s.statusWord.toNat
      = s.busy.toNat + 2 * s.done.toNat + 4 * s.ovr.toNat + 16 * (errField s.err).toNat := by
  unfold State.statusWord
  cases s.busy <;> cases s.done <;> cases s.ovr <;>
    (cases s.err with
    | none => rfl
    | some e => cases e <;> rfl)

@[simp] theorem State.truncWord_toNat (s : State) : s.truncWord.toNat = s.trunc.toNat := by
  have := s.trunc.isLt
  simp only [State.truncWord, BitVec.toNat_setWidth]
  omega

/-! The state right after reset. -/

@[simp] theorem State.reset_phase : State.reset.phase = .idle := rfl

@[simp] theorem State.reset_key : State.reset.key = [] := rfl

@[simp] theorem State.reset_keyMax : State.reset.keyMax = Config.keyMaxBytes := rfl

end Sys2Proof.Machine
end

