-- ==== Sys2Proof/Laws/Ops.lean ====
section
/-! SUPPORT. What the shared operations can do, said once: the acceptance of a command, the completions, the two host
transactions. -/

namespace Sys2Proof.Machine

/-! Acceptance. -/

/-- The checks of each command, in the order of 60_exceptions.md R223. -/
def commandChecks : Instr → State → List (Option CmdError)
  | .hotp d, s => [s.keyLenError, digitsError d]
  | .totp d, s => [s.keyLenError, digitsError d, s.stepError]
  | .hmac, s => [s.keyLenError]
  | .trunc, _ => []
  | .reduce d, _ => [digitsError d]
  | .clear, _ => []

/-- Every command is `submit` with its own checks and snapshot. -/
theorem exec_eq_submit (i : Instr) (s : State) : exec i s = s.submit (commandChecks i s) (snapshot i) := by
  cases i <;> rfl

/-- No error is reported exactly when every check passes. -/
theorem firstError_eq_none {es : List (Option CmdError)} : firstError es = none ↔ ∀ e ∈ es, e = none := by
  induction es with
  | nil => simp [firstError]
  | cons e es ih => cases e <;> simp [firstError, ih]

/-- The three outcomes of a submission (60_exceptions.md R222). -/
theorem State.submit_cases {checks : List (Option CmdError)} {snap : State → Job} {s t : State}
    (h : s.submit checks snap = .next t) :
    (s.busy = true ∧ t = s.dropWrite) ∨
    (s.busy = false ∧ ∃ e, firstError checks = some e ∧ t = s.reject e) ∨
    (s.busy = false ∧ firstError checks = none ∧ t = s.accept (snap s)) := by
  unfold State.submit at h
  split at h
  · cases h
    simp_all
  · split at h <;> cases h <;> simp_all

theorem State.submit_of_busy {checks : List (Option CmdError)} {snap : State → Job} {s : State}
    (h : s.busy = true) : s.submit checks snap = .next s.dropWrite := by simp [State.submit, h]

theorem State.submit_of_error {checks : List (Option CmdError)} {snap : State → Job} {s : State} {e : CmdError}
    (idle : s.busy = false) (h : firstError checks = some e) : s.submit checks snap = .next (s.reject e) := by
  simp [State.submit, idle, h]

theorem State.submit_of_ok {checks : List (Option CmdError)} {snap : State → Job} {s : State}
    (idle : s.busy = false) (h : firstError checks = none) :
    s.submit checks snap = .next (s.accept (snap s)) := by simp [State.submit, idle, h]

/-- A command written to CMD always has a next state. -/
theorem exec_next (i : Instr) (s : State) : ∃ t, exec i s = .next t := by
  rw [exec_eq_submit]
  unfold State.submit
  split
  · exact ⟨_, rfl⟩
  · split <;> exact ⟨_, rfl⟩

/-- The outcomes of a command word written to CMD (60_exceptions.md R222). -/
theorem State.submitWord_cases {w : Word} {s t : State} (h : s.submitWord w = .next t) :
    (s.busy = true ∧ t = s.dropWrite) ∨
    (s.busy = false ∧ ∃ e, t = s.reject e) ∨
    (s.busy = false ∧ ∃ i, decode w = .ok i ∧ firstError (commandChecks i s) = none ∧
      t = s.accept (snapshot i s)) := by
  unfold State.submitWord at h
  split at h
  · rename_i i hi
    rw [exec_eq_submit] at h
    rcases State.submit_cases h with ⟨b, rfl⟩ | ⟨b, e, -, rfl⟩ | ⟨b, ok, rfl⟩
    · exact .inl ⟨b, rfl⟩
    · exact .inr (.inl ⟨b, e, rfl⟩)
    · exact .inr (.inr ⟨b, i, hi, ok, rfl⟩)
  · cases h
    cases b : s.busy
    · exact .inr (.inl ⟨rfl, .illegalCmd, rfl⟩)
    · exact .inl ⟨rfl, rfl⟩

/-! Checks. -/

theorem State.keyLenError_eq_none {s : State} : s.keyLenError = none ↔ s.keyLen.toNat ≤ s.keyMax := by
  simp [State.keyLenError]

theorem digitsError_eq_none {d : Nat} : digitsError d = none ↔ validDigits d = true := by simp [digitsError]

theorem State.stepError_eq_none {s : State} : s.stepError = none ↔ s.stepSeconds ≠ 0 := by
  simp [State.stepError]

theorem validDigits_iff {d : Nat} : validDigits d = true ↔ 1 ≤ d ∧ d ≤ 9 := by simp [validDigits]

@[simp] theorem State.keyBytes_length (s : State) : s.keyBytes.length = s.keyLen.toNat := by
  simp [State.keyBytes]

/-- An accepted command's snapshot is legal (60_exceptions.md R225). -/
theorem snapshot_legal {i : Instr} {s : State} (ok : firstError (commandChecks i s) = none) :
    (snapshot i s).legal s.keyMax := by
  have all := firstError_eq_none.mp ok
  cases i <;>
    simp_all [commandChecks, snapshot, snapHotp, snapTotp, snapHmac, snapTrunc, snapReduce, snapClear, Job.legal,
      State.keyLenError_eq_none, digitsError_eq_none, State.stepError_eq_none]

@[simp] theorem command_snapshot (i : Instr) (s : State) : (snapshot i s).command = i := by cases i <;> rfl

/-- A snapshot depends on the operand registers alone (00_scope.md R6, 60_exceptions.md R228). -/
theorem snapshot_congr {s t : State} (i : Instr) (keyLen : t.keyLen = s.keyLen) (counter : t.counter = s.counter)
    (time : t.time = s.time) (stepSeconds : t.stepSeconds = s.stepSeconds) (digest : t.digest = s.digest)
    (trunc : t.trunc = s.trunc) (key : t.key = s.key) : snapshot i t = snapshot i s := by
  cases i <;>
    simp [snapshot, snapHotp, snapTotp, snapHmac, snapTrunc, snapReduce, snapClear, State.keyBytes, keyLen, counter,
      time, stepSeconds, digest, trunc, key]

/-! Completion. -/

/-- The state a command's completion leaves (60_exceptions.md R229). -/
def completed : Job → State → State
  | .hotp d key counter, s => (s.writeOtp key counter d).finish
  | .totp d key t x, s => ({ s with counter := timeStep t x }.writeOtp key (timeStep t x) d).finish
  | .hmac key counter, s => { s with digest := Digest.ofBytes (counterHmac key counter) }.finish
  | .trunc digest, s => { s with trunc := dynTruncate digest.bytes }.finish
  | .reduce d p, s => { s with code := reduceCode p d }.finish
  | .clear, s =>
    { s with
      key := [], keyLen := 0, counter := 0, time := 0, stepSeconds := 30, digest := ⟨0, 0, 0, 0, 0⟩, trunc := 0,
      code := 0 }.finish

/-- A legal job completes (60_exceptions.md R225). -/
theorem complete_of_legal {job : Job} {s : State} {n : Nat} (h : job.legal n) :
    complete job s = .next (completed job s) := by
  cases job <;>
    simp_all [Job.legal, complete, completed, completeHotp, completeTotp, completeHmac, completeTrunc,
      completeReduce, completeClear]

/-- Every completion that has a next state leaves the state its command describes. -/
theorem complete_cases {job : Job} {s t : State} (h : complete job s = .next t) : t = completed job s := by
  cases job <;>
    simp only [complete, completeHotp, completeTotp, completeHmac, completeTrunc, completeReduce,
      completeClear] at h <;>
    first
    | (split at h <;> cases h <;> rfl)
    | (cases h; rfl)

/-- What no completion changes: CTRL, OVR, ERR, the capacity and the model's own fields (60_exceptions.md R229). -/
theorem completed_frame (job : Job) (s : State) :
    (completed job s).keyMax = s.keyMax ∧ (completed job s).ie = s.ie ∧ (completed job s).ovr = s.ovr ∧
    (completed job s).err = s.err ∧ (completed job s).host = s.host ∧ (completed job s).turns = s.turns ∧
    (completed job s).response = s.response ∧ (completed job s).draws = s.draws := by
  cases job <;> simp [completed]

@[simp] theorem completed_phase (job : Job) (s : State) : (completed job s).phase = .idle := by
  cases job <;> rfl

@[simp] theorem completed_done (job : Job) (s : State) : (completed job s).done = true := by cases job <;> rfl

/-- A submission that is accepted passed every check (60_exceptions.md R222). -/
theorem exec_accepted {i : Instr} {s a : State} (idle : s.phase = .idle) (h : exec i s = .next a)
    (accepted : a.busy = true) : firstError (commandChecks i s) = none ∧ a = s.accept (snapshot i s) := by
  rw [exec_eq_submit] at h
  rcases State.submit_cases h with ⟨b, rfl⟩ | ⟨b, e, -, rfl⟩ | ⟨b, ok, rfl⟩
  · simp [State.busy_of_idle idle] at b
  · simp [b] at accepted
  · exact ⟨ok, rfl⟩

/-! The window. -/

/-- A read changes the response and at most the count of draws (20_memory.md R61). -/
theorem State.readFrom_sameEngine (r : Reg) (s : State) :
    s.readFrom r = { s with response := (s.readFrom r).response, draws := (s.readFrom r).draws } := by
  unfold State.readFrom
  split <;> rfl

/-- The outcomes of a write of a register (20_memory.md R62). -/
theorem State.writeTo_cases {r : Reg} {v : Word} {s t : State} (h : s.writeTo r v = .next t) :
    (r = .cmd ∧ s.submitWord v = .next t) ∨
    (r ≠ .cmd ∧ s.busy = true ∧ r.droppedWhileBusy = true ∧ t = s.dropWrite) ∨
    (r ≠ .cmd ∧ (s.busy && r.droppedWhileBusy) = false ∧ t = s.writeReg r v) := by
  unfold State.writeTo at h
  split at h
  · exact .inl ⟨‹_›, h⟩
  · split at h <;> cases h <;> simp_all

/-- A register found in a map stands in it. -/
theorem mem_of_lookup {m : List (Nat × Reg)} {a : Nat} {r : Reg} (h : m.lookup a = some r) : (a, r) ∈ m := by
  induction m with
  | nil => cases h
  | cons c m ih =>
    rw [List.lookup_cons] at h
    split at h
    · rename_i eq
      cases h
      simp [beq_iff_eq.mp eq]
    · exact List.mem_cons_of_mem c (ih h)

/-- The key-window word of an offset lies inside the buffer. -/
theorem regAt_keyWord {n j : Nat} {off : Offset} (h : regAt n off = .keyWord j) :
    off.toNat = 0x100 + 4 * j + off.toNat % 4 ∧ off.toNat < 0x100 + n := by
  unfold regAt at h
  split at h
  · rename_i r hr
    subst h
    simpa [registerMap] using mem_of_lookup hr
  · split at h
    · cases h
      omega
    · cases h

end Sys2Proof.Machine
end

