-- ==== Sys2Proof/Laws/PerInstr.lean ====
section
/-! SUPPORT. Facts stated for every command as syntax. -/

namespace Sys2Proof.Laws

/-- The opcode of each command (30_encoding.md R93). -/
def opcode : Instr → Nat
  | .hotp _ => 0x1
  | .totp _ => 0x2
  | .hmac => 0x3
  | .trunc => 0x4
  | .reduce _ => 0x5
  | .clear => 0xF

/-- The encoded word of a well-formed command has RSV = 0 and OP its opcode (30_encoding.md R91, R99). -/
def EncodedFields.Statement (i : Instr) : Prop :=
  i.wellFormed = true → rsvField (encode i) = 0 ∧ (opField (encode i)).toNat = opcode i

/-- The fields of a word with a digit count. -/
theorem digitsWord_fields {d : Nat} {op : Word} (hd : encodableDigits d = true) (hop : op.toNat < 16) :
    rsvField (digitsWord d op) = 0 ∧ (opField (digitsWord d op)).toNat = op.toNat := by
  have num := digitsWord_toNat (of_decide_eq_true hd) hop
  have small : d ≤ 15 := of_decide_eq_true hd
  constructor
  · apply BitVec.eq_of_toNat_eq
    rw [rsvField_toNat, num]
    show (16 * d + op.toNat) / 256 = 0
    omega
  · rw [opField_toNat, num]
    omega

theorem EncodedFields.hotp (d : Nat) : EncodedFields.Statement (.hotp d) :=
  fun h => digitsWord_fields h (by decide)

theorem EncodedFields.totp (d : Nat) : EncodedFields.Statement (.totp d) :=
  fun h => digitsWord_fields h (by decide)

theorem EncodedFields.hmac : EncodedFields.Statement .hmac := fun _ => by decide

theorem EncodedFields.trunc : EncodedFields.Statement .trunc := fun _ => by decide

theorem EncodedFields.reduce (d : Nat) : EncodedFields.Statement (.reduce d) :=
  fun h => digitsWord_fields h (by decide)

theorem EncodedFields.clear : EncodedFields.Statement .clear := fun _ => by decide

end Sys2Proof.Laws
end

