-- ==== Sys2Proof/Laws/Step.lean ====
section
/-! SUPPORT. What one step can do, said once. -/

namespace Sys2Proof.Machine

/-- `s` with its next turn used up. -/
abbrev State.taken (s : State) : State := { s with turns := s.turns.tail }

theorem step_engine {s : State} (h : s.mover = .engine) : step s = engineTurn s.taken := by
  simp [step, h, agentTurn]

theorem step_host {s : State} (h : s.mover = .host) : step s = hostTurn s.taken := by simp [step, h, agentTurn]

/-- The host that moves is named, or nobody is and either a reset is next or the engine is IDLE. -/
theorem mover_of_turn {s : State} {a : Agent} {rest : List Agent} (h : s.turns = a :: rest) : s.mover = a := by
  simp [State.mover, h]

theorem mover_default {s : State} (h : s.turns = []) : s.mover = nextAgent s := by simp [State.mover, h]

/-- With no operation left the host issues nothing. -/
theorem hostTurn_nil {s : State} (h : s.host = []) : hostTurn s = .next s := by simp [hostTurn, h]

theorem hostTurn_cons {s : State} {op : HostOp} {rest : List HostOp} (h : s.host = op :: rest) :
    hostTurn s = hostOp op { s with host := rest } := by simp [hostTurn, h]

theorem engineTurn_idle {s : State} (h : s.phase = .idle) : engineTurn s = .next s := by simp [engineTurn, h]

theorem engineTurn_busy {s : State} {job : Job} (h : s.phase = .busy job) : engineTurn s = complete job s := by
  simp [engineTurn, h]

/-- The four kinds of step that have a next state. -/
theorem step_cases {s t : State} (h : step s = .next t) :
    (s.mover = .engine ∧ s.phase = .idle ∧ t = s.taken) ∨
    (s.mover = .engine ∧ ∃ job, s.phase = .busy job ∧ t = completed job s.taken) ∨
    (s.mover = .host ∧ s.host = [] ∧ t = s.taken) ∨
    (s.mover = .host ∧ ∃ op rest, s.host = op :: rest ∧ hostOp op { s.taken with host := rest } = .next t) := by
  cases m : s.mover with
  | engine =>
    rw [step_engine m] at h
    cases p : s.phase with
    | idle =>
      rw [engineTurn_idle (s := s.taken) p] at h
      cases h
      exact .inl ⟨rfl, rfl, rfl⟩
    | busy job =>
      rw [engineTurn_busy (s := s.taken) p] at h
      exact .inr (.inl ⟨rfl, job, rfl, complete_cases h⟩)
  | host =>
    rw [step_host m] at h
    cases l : s.host with
    | nil =>
      rw [hostTurn_nil (s := s.taken) l] at h
      cases h
      exact .inr (.inr (.inl ⟨rfl, rfl, rfl⟩))
    | cons op rest =>
      rw [hostTurn_cons (s := s.taken) l] at h
      exact .inr (.inr (.inr ⟨rfl, op, rest, rfl, h⟩))

/-- What a host operation can do when it has a next state. -/
theorem hostOp_cases {op : HostOp} {s t : State} (h : hostOp op s = .next t) :
    (∃ off, op = .read off ∧ aligned off = true ∧ t = s.readFrom (regAt s.keyMax off)) ∨
    (∃ off v, op = .write off v ∧ aligned off = true ∧
      { s with response := none }.writeTo (regAt s.keyMax off) v = .next t) ∨
    (op = .reset ∧ t = s.hardReset) ∨
    (op = .wait ∧ t = { s with response := some s.statusWord, host := t.host }) ∨
    (op = .waitIrq ∧ t = { s with host := t.host }) := by
  cases op with
  | read off =>
    simp only [hostOp, hostRead] at h
    split at h <;> cases h
    exact .inl ⟨off, rfl, ‹_›, rfl⟩
  | write off v =>
    simp only [hostOp, hostWrite] at h
    split at h
    · exact .inr (.inl ⟨off, v, rfl, ‹_›, h⟩)
    · cases h
  | otherWidth w off => cases h
  | reset =>
    cases h
    exact .inr (.inr (.inl ⟨rfl, rfl⟩))
  | wait =>
    simp only [hostOp] at h
    split at h <;> cases h <;> simp
  | waitIrq =>
    simp only [hostOp] at h
    split at h <;> cases h <;> simp

end Sys2Proof.Machine
end

