-- ==== Sys2Proof/Laws/Window.lean ====
section
/-! SUPPORT. What the two host transactions do at one offset, said once, and one step of a run. -/

namespace Sys2Proof.Machine

/-! The map. -/

theorem regAt_of_lookup {n : Nat} {off : Offset} {r : Reg} (h : registerMap.lookup off.toNat = some r) :
    regAt n off = r := by simp [regAt, h]

theorem regAt_of_lookup_none {n : Nat} {off : Offset} (h : registerMap.lookup off.toNat = none) :
    regAt n off
      = if 0x100 ≤ off.toNat ∧ off.toNat < 0x100 + n then .keyWord ((off.toNat - 0x100) / 4) else .res0 := by
  simp [regAt, h]

/-- An offset that stands nowhere in the map is not found in it. -/
theorem lookup_eq_none {a : Nat} (h : ∀ r, (a, r) ∉ registerMap) : registerMap.lookup a = none := by
  cases e : registerMap.lookup a with
  | none => rfl
  | some r => exact absurd (mem_of_lookup e) (h r)

theorem regAt_cmdOffset (n : Nat) : regAt n cmdOffset = .cmd := regAt_of_lookup (by decide)

/-- CMD has one offset (10_state.md R39). -/
theorem eq_cmdOffset_of_regAt {n : Nat} {off : Offset} (h : regAt n off = .cmd) : off = cmdOffset := by
  unfold regAt at h
  split at h
  · rename_i r hr
    subst h
    have := mem_of_lookup hr
    simp [registerMap] at this
    exact BitVec.eq_of_toNat_eq this
  · split at h <;> cases h

/-- The offset of word j of the key window (10_state.md R35). -/
theorem regAt_of_keyOffset {n j : Nat} {off : Offset} (place : off.toNat = 0x100 + 4 * j) (inside : 4 * j < n) :
    regAt n off = .keyWord j := by
  rw [regAt_of_lookup_none (lookup_eq_none ?_), if_pos (by omega)]
  · congr 1
    omega
  · intro r hm
    simp [registerMap] at hm
    omega

/-! Reads. -/

theorem hostRead_aligned {off : Offset} {s : State} (h : off.toNat % 4 = 0) :
    hostRead off s = .next (s.readFrom (regAt s.keyMax off)) := by simp [hostRead, aligned, h]

/-- A register no command writes always reads as stored (70_reset_and_hazards.md R268). -/
theorem State.readFrom_of_never_written {r : Reg} {s : State} (h : ∀ job : Job, r ∉ job.writtenRegs) :
    s.readFrom r = { s with response := some (s.readReg r) } := by
  have stored : s.unspecified r = false := by
    unfold State.unspecified
    split
    · rfl
    · rename_i job _
      simpa using h job
  simp [State.readFrom, stored]

/-! Writes. -/

/-- A write of CMD submits the word (60_exceptions.md R222). -/
theorem hostWrite_cmdOffset (w : Word) (s : State) :
    hostWrite cmdOffset w s = State.submitWord w { s with response := none } := by
  have al : aligned cmdOffset = true := by decide
  simp [hostWrite, al, State.writeTo, regAt_cmdOffset]

/-- A write of any other register is dropped or stored (20_memory.md R62). -/
theorem hostWrite_of_ne_cmd {off : Offset} {v : Word} {s : State} (al : off.toNat % 4 = 0)
    (ne : regAt s.keyMax off ≠ .cmd) :
    hostWrite off v s = .next (
      if (s.busy && (regAt s.keyMax off).droppedWhileBusy) = true then { s with response := none }.dropWrite
      else { s with response := none }.writeReg (regAt s.keyMax off) v) := by
  have al' : aligned off = true := by simp [aligned, al]
  rw [hostWrite, if_pos al', State.writeTo, if_neg ne]
  show (if (s.busy && (regAt s.keyMax off).droppedWhileBusy) = true then _ else _) = _
  split <;> rfl

/-- No register write changes the phase. -/
@[simp] theorem State.writeReg_busy (r : Reg) (v : Word) (s : State) : (s.writeReg r v).busy = s.busy := by
  cases r <;> rfl

@[simp] theorem State.writeReg_keyMax (r : Reg) (v : Word) (s : State) : (s.writeReg r v).keyMax = s.keyMax := by
  cases r <;> rfl

/-- A write of a register has a next state, the submission of a command among them. -/
theorem State.writeTo_next (r : Reg) (v : Word) (s : State) : ∃ t, s.writeTo r v = .next t := by
  unfold State.writeTo State.submitWord
  split
  · split
    · exact exec_next _ _
    · exact ⟨_, rfl⟩
  · split <;> exact ⟨_, rfl⟩

/-! Runs. -/

/-- With no turn prescribed a step uses none up. -/
theorem State.taken_of_no_turns {s : State} (h : s.turns = []) : s.taken = s := by
  cases s
  cases h
  rfl

/-- A run peels its first step off. -/
theorem core_run_succ {k : Nat} {s t : State} (h : step s = .next t) :
    Sys2Proof.core.run (k + 1) s = Sys2Proof.core.run k t := by
  have h' : Sys2Proof.core.step s = .next t := h
  simp [Host.Core.run, h']

end Sys2Proof.Machine
end

