-- ==== Sys2Proof/Tests/Slice0.lean ====
section
/-! SUPPORT. Tests of single operations against the spec's own vectors (95_test_vectors.md), and for every statement that
has hypotheses a witness that meets them. A test's expected value comes from the section its comment names. -/

namespace Sys2Proof.Tests

open Sys2Proof Sys2Proof.Machine

/-! ### States -/

/-- The state an outcome carries. -/
def stateOf : Result → Option State
  | .next t => some t
  | .fault _ => none
  | .refused _ => none

/-- A command submitted and completed. -/
def afterCommand (i : Instr) (s : State) : Option State :=
  match exec i s with
  | .next a => stateOf (engineTurn a)
  | .fault _ => none
  | .refused _ => none

/-- The key "12345678901234567890" of 95_test_vectors.md section 1. -/
def rfcKey : Memory :=
  [(0, 0x31), (1, 0x32), (2, 0x33), (3, 0x34), (4, 0x35), (5, 0x36), (6, 0x37), (7, 0x38), (8, 0x39), (9, 0x30)] ++
  [(10, 0x31), (11, 0x32), (12, 0x33), (13, 0x34), (14, 0x35), (15, 0x36), (16, 0x37), (17, 0x38), (18, 0x39),
    (19, 0x30)]

/-- An engine with that key, TIME = 59 and the interrupt enabled. -/
def ready : State := { State.reset with key := rfcKey, keyLen := 20, time := 59, ie := true }

/-- `s` with one operation that the host performs next. -/
def hostWill (op : HostOp) (s : State) : State := { s with host := [op], turns := [.host] }

/-- `s` with a command just accepted. -/
def running (i : Instr) (s : State) : State := s.accept (snapshot i s)

/-- There is a next state. -/
abbrev Steps (s : State) : Prop := ∃ t, step s = .next t

theorem ready_inv : ready.Inv where
  keyMaxLegal := by decide
  keyCanonical := by decide
  keyInside := by decide
  doneNotBusy := by decide
  busyNoError := by decide
  snapshotCurrent := fun _ h => nomatch h
  jobLegal := fun _ h => nomatch h
  codeInRange := by decide

theorem running_inv : (running (.hotp 6) ready).Inv where
  keyMaxLegal := by decide
  keyCanonical := by decide
  keyInside := by decide
  doneNotBusy := by decide
  busyNoError := by decide
  snapshotCurrent := fun _ h => by cases h; rfl
  jobLegal := fun _ h => by cases h; exact ⟨by decide, by decide⟩
  codeInRange := by decide

/-! ### Well-formedness: what no command word can hold (30_encoding.md R99) -/

theorem test_hotp_sixteen_digits_refused : assemble (.hotp 16) = none := by decide
theorem test_totp_sixteen_digits_refused : assemble (.totp 16) = none := by decide
theorem test_reduce_sixteen_digits_refused : assemble (.reduce 16) = none := by decide
theorem test_commands_without_digits_assemble :
    assemble .hmac = some 0x00000003 ∧ assemble .trunc = some 0x00000004 ∧ assemble .clear = some 0x0000000F := by
  decide
theorem test_fifteen_digits_assemble : assemble (.reduce 15) = some 0x000000F5 := by decide

/-! ### Decoding: RSV(24) DIG(4) OP(4) written bit by bit from 30_encoding.md R91, R93 -/

theorem test_decode_hotp : decode 0b000000000000000000000000_0110_0001 = .ok (.hotp 6) := by decide
theorem test_decode_totp : decode 0b000000000000000000000000_1000_0010 = .ok (.totp 8) := by decide
theorem test_decode_hmac : decode 0b000000000000000000000000_0000_0011 = .ok .hmac := by decide
theorem test_decode_trunc : decode 0b000000000000000000000000_0000_0100 = .ok .trunc := by decide
theorem test_decode_reduce : decode 0b000000000000000000000000_1001_0101 = .ok (.reduce 9) := by decide
theorem test_decode_clear : decode 0b000000000000000000000000_0000_1111 = .ok .clear := by decide
theorem test_decode_reserved_bit : decode 0b100000000000000000000000_0110_0001 = .error .reservedBits := by decide
theorem test_decode_clear_with_digits : decode 0b000000000000000000000000_0001_1111 = .error .digitsNotZero := by decide
theorem test_decode_opcode_six : decode 0b000000000000000000000000_0000_0110 = .error .illegalOpcode := by decide
theorem test_decode_table_word : decodeTableWord 32 0x00000061 = some (.hotp 6) := by decide

/-! ### Commands, against 95_test_vectors.md -/

/-- Section 1, counter 0. -/
theorem test_hotp_counter_zero :
    (afterCommand (.hotp 6) ready).map (fun t => (t.code, t.trunc, t.digest.w0, t.counter))
      = some (755224, 0x4C93CF18, 0xcc93cf18, 0) := by decide +kernel

/-- Section 6.2, TIME = 59, d = 8. -/
theorem test_totp_time_59 :
    (afterCommand (.totp 8) ready).map (fun t => (t.code, t.counter, t.digest.w4))
      = some (94287082, 1, 0x7a2d33ab) := by decide +kernel

/-- Section 3, the empty key and COUNTER = 2^64 - 1. -/
theorem test_hmac_empty_key :
    (afterCommand .hmac { State.reset with counter := 0xFFFFFFFFFFFFFFFF }).map (fun t => (t.digest, t.trunc))
      = some (⟨0xb4216653, 0x6bafe0df, 0x836b6099, 0xe250be64, 0x6c2f2473⟩, 0) := by decide +kernel

/-- Section 4, offset 15, window 0xFFEEDDCC. -/
theorem test_trunc_offset_15 :
    (afterCommand .trunc { State.reset with digest := ⟨0, 0, 0, 0x000000ff, 0xeeddcc0f⟩ }).map (fun t => t.trunc)
      = some 0x7FEEDDCC := by decide

/-- Section 5, P = 1357872921, d = 6. -/
theorem test_reduce_six :
    (afterCommand (.reduce 6) { State.reset with trunc := 1357872921 }).map (fun t => t.code) = some 872921 := by
  decide

/-- Section 5, `reduce 10`: STATUS = 0x22 at once, CODE as before. -/
theorem test_reduce_ten_rejected :
    (stateOf (exec (.reduce 10) { State.reset with code := 7 })).map (fun t => (t.statusWord, t.code))
      = some (0x00000022, 7) := by decide

/-- Section 7: the digit count beats the step. -/
theorem test_totp_error_order :
    (stateOf (exec (.totp 12) { State.reset with keyLen := 20, stepSeconds := 0 })).map State.statusWord
      = some 0x00000022 := by decide

/-- Section 3: KEY_LEN = 257 then `hmac`. -/
theorem test_hmac_key_too_long :
    (stateOf (exec .hmac { State.reset with keyLen := 257 })).map State.statusWord = some 0x00000032 := by decide

/-- 42_otp_commands.md R205: STEP takes its reset value 30, the key is gone, OVR stays. -/
theorem test_clear_restores_step :
    (afterCommand .clear { ready with stepSeconds := 1, ovr := true }).map
      (fun t => (t.stepSeconds, t.key, t.time, t.ovr, t.ie)) = some (30, [], 0, true, true) := by decide

/-- 40_hmac_sha1.md R131: SHA1("abc"). -/
theorem test_sha1_abc : sha1 [0x61, 0x62, 0x63] = be 20 0xa9993e364706816aba3e25717850c26c9cd0d89d := by
  decide +kernel

/-! ### The window -/

/-- Section 1: KEYW+0 = 0x31323334 puts 0x31 at KEY[0] and 0x34 at KEY[3]. -/
theorem test_key_window_byte_order :
    (stateOf (hostWrite 0x100 0x31323334 State.reset)).map (fun t => (t.key.read 0, t.key.read 3))
      = some (0x31, 0x34) := by decide

/-- Section 4: `wr TRUNC, 0xFFFFFFFF` then `rd TRUNC` gives 0x7FFFFFFF. -/
theorem test_trunc_bit_31_not_stored :
    ((stateOf (hostWrite 0x030 0xFFFFFFFF State.reset)).bind
      (fun t => stateOf (hostRead 0x030 t))).bind State.response = some 0x7FFFFFFF := by decide

/-- Section 7, reset values: STEP_LO reads 0x1E and CAP 0x100. -/
theorem test_reset_reads :
    (stateOf (hostRead 0x028 State.reset)).bind State.response = some 0x0000001E ∧
    (stateOf (hostRead 0x004 State.reset)).bind State.response = some 0x00000100 := by decide

/-- 10_state.md R28: a write of KEY_LEN while BUSY is dropped and sets OVR. -/
theorem test_write_while_busy_dropped :
    (stateOf (hostWrite 0x014 5 (running .trunc State.reset))).map (fun t => (t.keyLen, t.ovr, t.busy))
      = some (0, true, true) := by decide

/-- 20_memory.md R65: a misaligned access has no step. -/
theorem test_misaligned_refused : hostRead 0x002 State.reset = .refused .misaligned := by rfl

/-- A fetched word is the next step's command. -/
theorem test_fetched_word_is_executed :
    (stateOf (step (State.reset.withFetchWord 32 0x00000065))).map (fun t => (t.statusWord, t.phase))
      = some (0x00000001, .busy (.reduce 6 0)) := by decide

/-! ### Witnesses: for each statement with hypotheses, states and operands that meet them together -/

theorem witness_NothingSurvivesReset :
    ∃ s t s' t' : State, s.keyMax = t.keyMax ∧ hostOp .reset s = .next s' ∧ hostOp .reset t = .next t' :=
  ⟨ready, running .clear ready, _, _, rfl, rfl, rfl⟩

theorem witness_PendingResetGoesFirst :
    ∃ (s : State) (rest : List HostOp), s.busy = true ∧ s.turns = [] ∧ s.host = .reset :: rest :=
  ⟨{ running (.hotp 6) ready with host := [.reset, .read 0x034] }, [.read 0x034], rfl, rfl, rfl⟩

theorem witness_ResetMeetsTheInvariant : Config.LegalKeyMax 64 ∧ Config.LegalKeyMax 256 ∧ Config.LegalKeyMax 3840 := by
  decide

theorem witness_EveryStepKeepsTheInvariant :
    (∃ s t : State, s.Inv ∧ step s = .next t) ∧ ∃ s t : State, s.Inv ∧ s.busy = true ∧ step s = .next t :=
  ⟨⟨ready, _, ready_inv, rfl⟩, running (.hotp 6) ready, _, running_inv, rfl, rfl⟩

theorem witness_AcceptedCommandsAlwaysComplete : ∃ (s : State) (job : Job), s.Inv ∧ s.phase = .busy job :=
  ⟨running (.hotp 6) ready, _, running_inv, rfl⟩

theorem witness_BusyEndsWithinThePrescribedTurns :
    ∃ s : State, s.Inv ∧ (∀ op ∈ s.host, op.admitted = true) ∧ s.busy = true :=
  ⟨running (.hotp 6) ready, running_inv, by decide, rfl⟩

theorem witness_PhaseChangesOnlyByAcceptanceCompletionReset :
    (∃ (s t : State) (job : Job), step s = .next t ∧ s.phase = .idle ∧ t.phase = .busy job) ∧
    (∃ (s t : State) (job : Job), s.mover = .engine ∧ step s = .next t ∧ s.phase = .busy job ∧ t.phase = .idle) ∧
    (∃ (s t : State) (job : Job), s.hostNext = some .reset ∧ step s = .next t ∧ s.phase = .busy job ∧
      t.phase = .idle) ∧
    ∃ (s t : State) (job job' : Job), step s = .next t ∧ s.phase = .busy job ∧ t.phase = .busy job' :=
  ⟨⟨hostWill (.write 0x010 0x00000004) ready, _, _, rfl, rfl, rfl⟩,
    ⟨running .trunc ready, _, _, rfl, rfl, rfl, rfl⟩,
    ⟨hostWill .reset (running .trunc ready), _, _, rfl, rfl, rfl, rfl⟩,
    hostWill (.read 0x034) (running .trunc ready), _, _, _, rfl, rfl, rfl⟩

theorem witness_DoneFollowsItsEvents :
    Steps (running .trunc ready) ∧ Steps (hostWill (.write 0x010 0x00000004) ready) ∧
    Steps (hostWill (.write 0x010 0x00000000) ready) ∧ Steps (hostWill (.write 0x010 0x00000004) (running .trunc ready)) ∧
    Steps (hostWill (.write 0x00C 0x00000002) ready) ∧ Steps (hostWill (.write 0x014 0x00000002) ready) ∧
    Steps (hostWill .reset ready) ∧ Steps (hostWill (.read 0x034) ready) :=
  ⟨⟨_, rfl⟩, ⟨_, rfl⟩, ⟨_, rfl⟩, ⟨_, rfl⟩, ⟨_, rfl⟩, ⟨_, rfl⟩, ⟨_, rfl⟩, ⟨_, rfl⟩⟩

theorem witness_OvrFollowsItsEvents :
    Steps (running .trunc ready) ∧ Steps (hostWill (.write 0x0FC 1) (running .trunc ready)) ∧
    Steps (hostWill (.write 0x1FC 1) (running .trunc ready)) ∧
    Steps (hostWill (.write 0x00C 0x00000004) (running .trunc ready)) ∧
    Steps (hostWill (.write 0x050 1) (running .trunc ready)) ∧ Steps (hostWill .reset ready) ∧
    Steps (hostWill .wait ready) :=
  ⟨⟨_, rfl⟩, ⟨_, rfl⟩, ⟨_, rfl⟩, ⟨_, rfl⟩, ⟨_, rfl⟩, ⟨_, rfl⟩, ⟨_, rfl⟩⟩

theorem witness_ErrFollowsTheLastCommandWrittenWhileIdle :
    (∃ (s t : State) (off : Offset) (w : Word), step s = .next t ∧ s.hostNext = some (.write off w) ∧
      regAt s.keyMax off = .cmd ∧ s.busy = false) ∧
    (∃ s t : State, step s = .next t ∧ s.hostNext = some .reset) ∧
    (∃ (s t : State) (off : Offset) (w : Word), step s = .next t ∧ s.hostNext = some (.write off w) ∧
      regAt s.keyMax off = .cmd ∧ s.busy = true) ∧
    ∃ s t : State, step s = .next t ∧ s.hostNext = none :=
  ⟨⟨hostWill (.write 0x010 0x000000A5) ready, _, _, _, rfl, rfl, by decide, rfl⟩,
    ⟨hostWill .reset ready, _, rfl, rfl⟩,
    ⟨hostWill (.write 0x010 0x000000A5) (running .trunc ready), _, _, _, rfl, rfl, by decide, rfl⟩,
    running .trunc ready, _, rfl, rfl⟩

theorem witness_CtrlAndCapChangeOnlyByTheirOwnRules :
    ∃ s t : State, step s = .next t ∧ t.ie ≠ s.ie := ⟨hostWill (.write 0x008 0) ready, _, rfl, by decide⟩

theorem witness_DecodeOfEncodeIsTheCommand :
    (Instr.hotp 0).wellFormed = true ∧ (Instr.hotp 15).wellFormed = true ∧ (Instr.hotp 16).wellFormed = false := by
  decide

theorem witness_EncodeOfDecodeIsTheWord : ∃ (w : Word) (i : Instr), decode w = .ok i := ⟨0x000000F2, .totp 15, by decide⟩

theorem witness_DecodeFollowsTheOpcodeMap :
    (0x00000100 : Word).toNat / 256 ≠ 0 ∧ (0x000000FF : Word).toNat / 256 = 0 ∧ (0x00000001 : Word).toNat % 16 = 1 ∧
    (0x000000F2 : Word).toNat % 16 = 2 ∧ (0x00000095 : Word).toNat % 16 = 5 ∧
    ((0x00000003 : Word).toNat % 16 = 3 ∧ (0x00000003 : Word).toNat / 16 % 16 = 0) ∧
    ((0x00000004 : Word).toNat % 16 = 4 ∧ (0x00000004 : Word).toNat / 16 % 16 = 0) ∧
    ((0x0000000F : Word).toNat % 16 = 15 ∧ (0x0000000F : Word).toNat / 16 % 16 = 0) ∧
    ((0x00000013 : Word).toNat % 16 = 3 ∧ (0x00000013 : Word).toNat / 16 % 16 ≠ 0) ∧
    (0x00000000 : Word).toNat % 16 = 0 ∧ (0x00000006 : Word).toNat % 16 = 6 ∧ (0x0000000E : Word).toNat % 16 = 14 := by
  decide

theorem witness_FiftyOneWordsAreLegalThirtyAcceptable :
    ∃ (s : State) (w : Word) (e : DecodeError), s.phase = .idle ∧ decode w = .error e :=
  ⟨ready, 0x00000100, .reservedBits, rfl, by decide⟩

theorem witness_StepRunsTheDecodedCommand :
    (∃ (s : State) (w : Word) (i : Instr) (rest : List HostOp), s.mover = .host ∧ s.host = .write 0x010 w :: rest ∧
      decode w = .ok i) ∧
    (∃ (s : State) (w : Word) (e : DecodeError) (rest : List HostOp), s.mover = .host ∧
      s.host = .write 0x010 w :: rest ∧ decode w = .error e) ∧
    (∀ op ∈ ([.read 0x034, .write 0x014 1, .otherWidth .byte 0, .reset, .wait, .waitIrq] : List HostOp),
      ∃ (s : State) (rest : List HostOp), s.mover = .host ∧ s.host = op :: rest) ∧
    (∃ s : State, s.mover = .host ∧ s.host = []) ∧ (∃ s : State, s.mover = .engine) ∧ ready.phase = .idle ∧
    ∃ (s : State) (a : Agent) (rest : List Agent), s.turns = a :: rest :=
  ⟨⟨hostWill (.write 0x010 0x00000061) ready, 0x00000061, .hotp 6, [], rfl, rfl, by decide⟩,
    ⟨hostWill (.write 0x010 0x00000007) ready, 0x00000007, .illegalOpcode, [], rfl, rfl, by decide⟩,
    fun op _ => ⟨hostWill op ready, [], rfl, rfl⟩, ⟨ready, rfl, rfl⟩, ⟨running .hmac ready, rfl⟩, rfl,
    hostWill .reset ready, .host, [], rfl⟩

/-- Both phases; an illegal word, and a legal one that fails each check at its boundary or passes them all. -/
theorem witness_SubmissionChecksInOrder :
    (running .hmac ready).busy = true ∧ ready.busy = false ∧ decode 0x00000006 = .error .illegalOpcode ∧
    (decode 0x00000003 = .ok .hmac ∧ { ready with keyLen := 257 }.keyMax < { ready with keyLen := 257 }.keyLen.toNat) ∧
    (decode 0x00000001 = .ok (.hotp 0) ∧ ¬ ready.keyMax < ready.keyLen.toNat) ∧
    (decode 0x000000A5 = .ok (.reduce 10) ∧ Instr.usesKey (.reduce 10) = false) ∧
    (decode 0x00000092 = .ok (.totp 9) ∧ { ready with stepSeconds := 0 }.stepSeconds = 0) ∧
    (decode 0x00000012 = .ok (.totp 1) ∧ ready.stepSeconds ≠ 0) := by decide

theorem witness_RejectionChangesErrAndDoneOnly :
    ∃ (s t : State) (w : Word), s.phase = .idle ∧ hostWrite 0x010 w s = .next t ∧ t.phase = .idle :=
  ⟨ready, _, 0x00000005, rfl, rfl, rfl⟩

theorem witness_StatusShowsTheOutcomeAtOnce :
    (∃ (s t u : State) (w : Word), s.phase = .idle ∧ hostWrite 0x010 w s = .next t ∧ engineTurn t = .next u) ∧
    ∃ (s t : State) (w : Word), s.phase = .idle ∧ hostWrite 0x010 w s = .next t ∧ t.busy = false :=
  ⟨⟨ready, _, _, 0x00000004, rfl, rfl, rfl⟩, ready, _, 0x00000005, rfl, rfl, rfl⟩

/-- The empty key and the longest. -/
theorem witness_HmacWritesTheDigest :
    (∃ s : State, s.phase = .idle ∧ s.keyLen = 0 ∧ s.keyLen.toNat ≤ s.keyMax) ∧
    ∃ s : State, s.phase = .idle ∧ s.keyLen.toNat = s.keyMax ∧ s.keyLen.toNat ≤ s.keyMax :=
  ⟨⟨State.reset, rfl, rfl, by decide⟩, { ready with keyLen := 256 }, rfl, by decide, by decide⟩

theorem witness_TruncWritesTheTruncatedValue : ∃ s : State, s.phase = .idle := ⟨ready, rfl⟩

theorem witness_ReduceWritesTheCode :
    ∃ (s : State) (d e : Nat), s.phase = .idle ∧ d = 1 ∧ e = 9 ∧ 1 ≤ d ∧ d ≤ 9 ∧ 1 ≤ e ∧ e ≤ 9 :=
  ⟨ready, 1, 9, by decide⟩

theorem witness_HotpWritesDigestTruncAndCode :
    ∃ (s : State) (d : Nat), s.phase = .idle ∧ s.keyLen.toNat ≤ s.keyMax ∧ 1 ≤ d ∧ d ≤ 9 := ⟨ready, 9, by decide⟩

theorem witness_TotpWritesCounterDigestTruncAndCode :
    ∃ (s : State) (d : Nat), s.phase = .idle ∧ s.keyLen.toNat ≤ s.keyMax ∧ 1 ≤ d ∧ d ≤ 9 ∧ s.stepSeconds ≠ 0 :=
  ⟨ready, 1, by decide⟩

theorem witness_ClearErasesOperandsResultsAndKey : ∃ s : State, s.phase = .idle := ⟨ready, rfl⟩

theorem witness_AfterClearRegistersReadAsAfterReset :
    ∃ s t u : State, s.phase = .busy .clear ∧ engineTurn s = .next t ∧ hostOp .reset s = .next u :=
  ⟨running .clear ready, _, _, rfl, rfl, rfl⟩

/-- Each command, from IDLE and while BUSY. -/
theorem witness_SubmissionLeavesEverythingButStatus :
    (∀ i : Instr, ∃ t, ready.busy = false ∧ exec i ready = .next t) ∧
    ∀ i : Instr, ∃ t, (running .clear ready).busy = true ∧ exec i (running .clear ready) = .next t :=
  ⟨fun i => ⟨_, rfl, (exec_next i ready).choose_spec⟩,
    fun i => ⟨_, rfl, (exec_next i (running .clear ready)).choose_spec⟩⟩

theorem witness_CompletionWritesOnlyItsOwnRegisters :
    (∃ (s t : State) (d : Nat) (k : List Byte) (c : Dword), s.phase = .busy (.hotp d k c) ∧ engineTurn s = .next t) ∧
    (∃ (s t : State) (d : Nat) (k : List Byte) (c x : Dword), s.phase = .busy (.totp d k c x) ∧
      engineTurn s = .next t) ∧
    (∃ (s t : State) (k : List Byte) (c : Dword), s.phase = .busy (.hmac k c) ∧ engineTurn s = .next t) ∧
    (∃ (s t : State) (h : Digest), s.phase = .busy (.trunc h) ∧ engineTurn s = .next t) ∧
    (∃ (s t : State) (d : Nat) (p : BitVec 31), s.phase = .busy (.reduce d p) ∧ engineTurn s = .next t) ∧
    ∃ s t : State, s.phase = .busy .clear ∧ engineTurn s = .next t :=
  ⟨⟨running (.hotp 6) ready, _, _, _, _, rfl, rfl⟩, ⟨running (.totp 8) ready, _, _, _, _, _, rfl, rfl⟩,
    ⟨running .hmac ready, _, _, _, rfl, rfl⟩, ⟨running .trunc ready, _, _, rfl, rfl⟩,
    ⟨running (.reduce 1) ready, _, _, _, rfl, rfl⟩, running .clear ready, _, rfl, rfl⟩

theorem witness_CodeStaysBelowTenToTheDigits :
    (∃ (s t : State) (job : Job), s.phase = .busy job ∧ job.command.digitCount = some 1 ∧ engineTurn s = .next t) ∧
    ∃ (s t : State) (job : Job), s.phase = .busy job ∧ job.command.digitCount = some 9 ∧ engineTurn s = .next t :=
  ⟨⟨running (.hotp 1) ready, _, _, rfl, rfl, rfl⟩, running (.reduce 9) ready, _, _, rfl, rfl, rfl⟩

/-- A second engine with another byte above KEY_LEN, other results, and other values in the operands the command does not
latch: TIME and STEP for HOTP and HMAC, COUNTER for TOTP. -/
theorem witness_ResultsDependOnTheSnapshotAlone :
    ∀ p ∈ ([(.hotp 6, { ready with time := 7, stepSeconds := 0 }), (.hmac, { ready with time := 7, stepSeconds := 0 }),
        (.totp 8, { ready with counter := 7 })] : List (Instr × State)),
      ∃ t : State, t = { p.2 with key := rfcKey ++ [(20, 0xFF)], code := 7 } ∧
        p.1.usesKey = true ∧ ready.phase = .idle ∧ t.phase = .idle ∧ ready.keyMax = t.keyMax ∧
        ready.keyLen = t.keyLen ∧ (∀ j, j < ready.keyLen.toNat → ready.key.read j = t.key.read j) ∧
        (p.1.usesStep = false → ready.counter = t.counter) ∧
        (p.1.usesStep = true → ready.time = t.time ∧ ready.stepSeconds = t.stepSeconds) ∧
        ∃ a b s' t' : State, exec p.1 ready = .next a ∧ exec p.1 t = .next b ∧ a.busy = true ∧
          engineTurn a = .next s' ∧ engineTurn b = .next t' := by
  have sameKey : ∀ j, j < ready.keyLen.toNat → ready.key.read j = Memory.read (rfcKey ++ [(20, 0xFF)]) j := by decide
  intro p hp
  simp only [List.mem_cons, List.not_mem_nil, or_false] at hp
  rcases hp with rfl | rfl | rfl
  all_goals
    exact ⟨_, rfl, rfl, rfl, rfl, rfl, rfl, sameKey, by decide, by decide, _, _, _, _, rfl, rfl, rfl, rfl, rfl⟩

theorem witness_HotpAfterTotpGivesTheSameCode :
    ∃ (s t : State) (d : Nat), s.phase = .idle ∧ s.keyLen.toNat ≤ s.keyMax ∧ 1 ≤ d ∧ d ≤ 9 ∧ s.stepSeconds ≠ 0 ∧
      ∃ a, exec (.totp d) s = .next a ∧ engineTurn a = .next t :=
  ⟨ready, _, 8, by decide, by decide, by decide, by decide, by decide, _, rfl, rfl⟩

/-- The last second of window 1, and its first. -/
theorem witness_TotpInWindowEqualsHotpAtItsIndex :
    ∀ time ∈ ([30, 59] : List Dword), ∃ (s t s' t' : State) (d i : Nat), s.phase = .idle ∧ t.phase = .idle ∧
      s.keyLen = t.keyLen ∧ s.key = t.key ∧ s.keyLen.toNat ≤ s.keyMax ∧ t.keyLen.toNat ≤ t.keyMax ∧ 1 ≤ d ∧ d ≤ 9 ∧
      s.stepSeconds = 30 ∧ s.time = time ∧ 30 * i ≤ s.time.toNat ∧ s.time.toNat ≤ 30 * i + 29 ∧
      t.counter.toNat = i ∧ (∃ a, exec (.totp d) s = .next a ∧ engineTurn a = .next s') ∧
      ∃ a, exec (.hotp d) t = .next a ∧ engineTurn a = .next t' := by
  intro time h
  simp only [List.mem_cons, List.not_mem_nil, or_false] at h
  rcases h with rfl | rfl
  · exact ⟨{ ready with time := 30 }, { ready with counter := 1 }, _, _, 6, 1, rfl, rfl, rfl, rfl, by decide, by decide,
      by decide, by decide, rfl, rfl, by decide, by decide, rfl, ⟨_, rfl, rfl⟩, _, rfl, rfl⟩
  · exact ⟨{ ready with time := 59 }, { ready with counter := 1 }, _, _, 6, 1, rfl, rfl, rfl, rfl, by decide, by decide,
      by decide, by decide, rfl, rfl, by decide, by decide, rfl, ⟨_, rfl, rfl⟩, _, rfl, rfl⟩

theorem witness_ScheduleFollowsItsRecurrence : (15 : Nat) ≤ 15 ∧ (16 : Nat) ≤ 16 ∧ (16 : Nat) ≤ 79 ∧ (79 : Nat) ≤ 79 := by
  decide

/-- Both ends of each range of rounds, and of the rotation. -/
theorem witness_CompressionRunsEightyRounds :
    ((0 : Nat) ≤ 19 ∧ (19 : Nat) ≤ 19) ∧ ((20 : Nat) ≤ 20 ∧ (39 : Nat) ≤ 39) ∧ ((40 : Nat) ≤ 40 ∧ (59 : Nat) ≤ 59) ∧
    ((60 : Nat) ≤ 60 ∧ (79 : Nat) ≤ 79) ∧ (0 : Nat) ≤ 31 ∧ (31 : Nat) ≤ 31 := by decide

theorem witness_Sha1ChainsTheBlocksOfThePaddedMessage : 0 < (pad []).length / 64 := by decide

theorem witness_HmacIsTheNestedHashOfThePaddedKey :
    (∃ k : List Byte, k.length = 64 ∧ k.length ≤ 64) ∧ ∃ k : List Byte, k.length = 65 ∧ 64 < k.length :=
  ⟨⟨zeros 64, by decide⟩, zeros 65, by decide⟩

theorem witness_TrailingZeroKeyBytesDoNotMatter : ([0x61, 0x62] : List Byte).length + 62 ≤ 64 := by decide

/-- The two ends of the offset's range. -/
theorem witness_TruncationReadsTheWindowAtTheOffset :
    (be 20 0).length = 20 ∧ truncOffset (be 20 0) = 0 ∧ (be 20 0x0F).length = 20 ∧ truncOffset (be 20 0x0F) = 15 := by
  decide

theorem witness_ReductionIsTheRemainder : ∃ d e : Nat, d = 1 ∧ e = 9 ∧ 1 ≤ d ∧ d ≤ 9 ∧ 1 ≤ e ∧ e ≤ 9 :=
  ⟨1, 9, by decide⟩

theorem witness_TimeStepIsExactDivision :
    (1 : Dword) ≠ 0 ∧ (29 : Dword).toNat < (30 : Dword).toNat ∧ (0xFFFFFFFFFFFFFFFF : Dword) ≠ 0 := by decide

theorem witness_DigestWordsAreBigEndian : ∃ hs : List Byte, hs.length = 20 := ⟨zeros 20, by decide⟩

theorem witness_IdAndCapReadTheirConstants :
    Config.LegalKeyMax ready.keyMax ∧ Config.LegalKeyMax { ready with keyMax := 64 }.keyMax ∧
    Config.LegalKeyMax { ready with keyMax := 3840 }.keyMax := by decide

/-- Both ends of each reserved range. -/
theorem witness_ReservedOffsetsReadZeroAndIgnoreWrites :
    ∀ off ∈ ([0x038, 0x03C, 0x054, 0x0FC, 0x200, 0xFFC] : List Offset), off.toNat % 4 = 0 ∧
      (off.toNat = 0x038 ∨ off.toNat = 0x03C ∨ 0x054 ≤ off.toNat ∧ off.toNat ≤ 0x0FC ∨
        0x100 + ready.keyMax ≤ off.toNat) := by
  simp [ready, Config.keyMaxBytes]

/-- Every operand and result register, in either phase, with the state its write leaves while IDLE. -/
theorem witness_OperandWritesStoreWhileIdleAndDropWhileBusy :
    ready.phase = .idle ∧ (∃ job, (running (.hotp 6) ready).phase = .busy job) ∧
    ∀ s v, s = ready ∨ s = running (.hotp 6) ready → ∀ p ∈ ([
      (0x014, .keyLen, { s with response := none, keyLen := v }),
      (0x018, .counterLo, { s with response := none, counter := s.counter.extractLsb' 32 32 ++ v }),
      (0x01C, .counterHi, { s with response := none, counter := v ++ s.counter.extractLsb' 0 32 }),
      (0x020, .timeLo, { s with response := none, time := s.time.extractLsb' 32 32 ++ v }),
      (0x024, .timeHi, { s with response := none, time := v ++ s.time.extractLsb' 0 32 }),
      (0x028, .stepLo, { s with response := none, stepSeconds := s.stepSeconds.extractLsb' 32 32 ++ v }),
      (0x02C, .stepHi, { s with response := none, stepSeconds := v ++ s.stepSeconds.extractLsb' 0 32 }),
      (0x030, .trunc, { s with response := none, trunc := v.extractLsb' 0 31 }),
      (0x040, .digest0, { s with response := none, digest := { s.digest with w0 := v } }),
      (0x044, .digest1, { s with response := none, digest := { s.digest with w1 := v } }),
      (0x048, .digest2, { s with response := none, digest := { s.digest with w2 := v } }),
      (0x04C, .digest3, { s with response := none, digest := { s.digest with w3 := v } }),
      (0x050, .digest4, { s with response := none, digest := { s.digest with w4 := v } })] :
        List (Offset × Reg × State)),
      (p.1, regAt s.keyMax p.1, p.2.2) = p := by
  refine ⟨rfl, ⟨_, rfl⟩, fun s v hs => ?_⟩
  have cap : s.keyMax = ready.keyMax := by rcases hs with rfl | rfl <;> rfl
  rw [cap]
  simp [regAt, registerMap, List.lookup]

theorem witness_WindowFollowsTheRegisterMap :
    Config.LegalKeyMax 256 ∧ (0x054 ≤ (0x054 : Offset).toNat ∧ (0x0FC : Offset).toNat ≤ 0x0FC) ∧
    ((0x100 : Offset).toNat = 0x100 + 4 * 0 ∧ 4 * 0 < 256) ∧ ((0x1FC : Offset).toNat = 0x100 + 4 * 63 ∧ 4 * 63 < 256) ∧
    0x100 + 256 ≤ (0x200 : Offset).toNat := by decide

theorem witness_KeyWindowWriteSetsFourBytes :
    ready.key.wf ∧ (0x100 : Offset).toNat = 0x100 + 4 * 0 ∧ 4 * 0 < ready.keyMax ∧
    (0x1FC : Offset).toNat = 0x100 + 4 * 63 ∧ 4 * 63 < ready.keyMax ∧ ready.busy = false ∧
    (running .hmac ready).key.wf ∧ (running .hmac ready).busy = true := by decide

/-- While HMAC runs DIGEST0 is unspecified and CODE is not (95_test_vectors.md section 7). -/
theorem witness_HostReadReturnsStoredOrUnspecified :
    (0x040 : Offset).toNat % 4 = 0 ∧ (0x034 : Offset).toNat % 4 = 0 ∧
    regAt (running .hmac ready).keyMax 0x040 ∈ ([.digest0, .digest1, .digest2, .digest3, .digest4] : List Reg) ∧
    regAt (running .hmac ready).keyMax 0x034 ∉ ([.digest0, .digest1, .digest2, .digest3, .digest4] : List Reg) ∧
    ∃ (k : List Byte) (c : Dword), (running .hmac ready).phase = .busy (.hmac k c) :=
  ⟨by decide, by decide, by decide, by decide, _, _, rfl⟩

theorem witness_RepeatingAWriteChangesNothing :
    ∃ (s t : State) (off : Offset) (v : Word), s.key.wf ∧ regAt s.keyMax off ≠ .cmd ∧ hostWrite off v s = .next t :=
  ⟨ready, _, 0x100, 0x00000031, by decide, by decide, rfl⟩

theorem witness_InterruptFollowsEnableAndDone :
    (∃ (s t : State) (job : Job), s.phase = .busy job ∧ engineTurn s = .next t) ∧
    (∃ (s t : State) (w : Word), s.phase = .idle ∧ hostWrite 0x010 w s = .next t) ∧
    (∃ (s t : State) (w : Word), s.busy = true ∧ hostWrite 0x010 w s = .next t) ∧
    (∃ (s t : State) (v : Word), v.getLsbD 1 = true ∧ hostWrite 0x00C v s = .next t) ∧
    (∃ (s t : State) (v : Word), v.getLsbD 0 = false ∧ hostWrite 0x008 v s = .next t) ∧
    ∃ s t : State, hostOp .reset s = .next t :=
  ⟨⟨running .trunc ready, _, _, rfl, rfl⟩, ⟨ready, _, 0x00000004, rfl, rfl⟩,
    ⟨running .trunc ready, _, 0x00000004, rfl, rfl⟩, ⟨ready, _, 0x00000002, by decide, rfl⟩,
    ⟨ready, _, 0, by decide, rfl⟩, ready, _, rfl⟩

/-- The empty key, one of 20 bytes and the longest. -/
theorem witness_SetkeyLoadsTheKey :
    ∀ b ∈ ([[], zeros 20, zeros 256] : List (List Byte)), ∃ s : State, s.Inv ∧ s.phase = .idle ∧ s.turns = [] ∧
      s.host = setkey b ++ [.read 0x034] ∧ b.length ≤ s.keyMax := by
  intro b hb
  refine ⟨{ ready with host := setkey b ++ [.read 0x034] }, ⟨ready_inv.keyMaxLegal, ready_inv.keyCanonical,
    ready_inv.keyInside, ready_inv.doneNotBusy, ready_inv.busyNoError, (fun _ h => nomatch h), (fun _ h => nomatch h),
    ready_inv.codeInRange⟩, rfl, rfl, rfl, ?_⟩
  simp only [List.mem_cons, List.not_mem_nil, or_false] at hb
  rcases hb with rfl | rfl | rfl <;> simp [ready, Config.keyMaxBytes]

end Sys2Proof.Tests
end

section
/-! ID, CAP, CTRL and STATUS through the window, and the value of OVR (10_state.md R22 to R25, R28). -/

namespace Sys2Proof.Machine

/-! ### Offsets of ID, CAP, CTRL and STATUS (10_state.md R39) -/

theorem regAt_idOffset (n : Nat) : regAt n 0x000 = .id := regAt_of_lookup (by decide)

theorem regAt_capOffset (n : Nat) : regAt n 0x004 = .cap := regAt_of_lookup (by decide)

theorem regAt_ctrlOffset (n : Nat) : regAt n 0x008 = .ctrl := regAt_of_lookup (by decide)

theorem regAt_statusOffset (n : Nat) : regAt n 0x00C = .status := regAt_of_lookup (by decide)

/-! ### Host transactions on a register that is never dropped while BUSY -/

/-- A command writes CODE and registers the host may not write meanwhile, no other (10_state.md R40). -/
theorem Job.droppedWhileBusy_of_mem_writtenRegs (job : Job) :
    ∀ r ∈ job.writtenRegs, r.droppedWhileBusy = true ∨ r = .code := by
  cases job <;> simp [Job.writtenRegs, digestRegs, Reg.droppedWhileBusy]

/-- A register that is neither dropped while BUSY nor CODE reads as stored in either phase. -/
theorem hostRead_of_not_dropped {off : Offset} {r : Reg} {s : State} (al : off.toNat % 4 = 0)
    (at_off : regAt s.keyMax off = r) (kept : r.droppedWhileBusy = false) (ne : r ≠ .code) :
    hostRead off s = .next { s with response := some (s.readReg r) } := by
  rw [hostRead_aligned al, at_off, State.readFrom_of_never_written]
  intro job written
  rcases job.droppedWhileBusy_of_mem_writtenRegs r written with dropped | code
  · simp [kept] at dropped
  · exact ne code

/-- A register that is not dropped while BUSY takes its write in either phase (20_memory.md R62). -/
theorem hostWrite_of_not_dropped {off : Offset} {r : Reg} {v : Word} {s : State} (al : off.toNat % 4 = 0)
    (at_off : regAt s.keyMax off = r) (kept : r.droppedWhileBusy = false) :
    hostWrite off v s = .next ({ s with response := none }.writeReg r v) := by
  subst at_off
  have ne : regAt s.keyMax off ≠ .cmd := fun cmd => by simp [cmd, Reg.droppedWhileBusy] at kept
  simp [hostWrite_of_ne_cmd al ne, kept]

/-! ### The words of CAP, CTRL and STATUS -/

/-- Every legal capacity fits the 16 bits of CAP.KEYMAX (10_state.md R23). -/
theorem State.capWord_toNat {s : State} (legal : Config.LegalKeyMax s.keyMax) : s.capWord.toNat = s.keyMax := by
  obtain ⟨-, atMost, -⟩ := legal
  simp only [State.capWord, BitVec.toNat_setWidth, BitVec.toNat_ofNat]
  omega

/-- CTRL is IE in bit 0 (10_state.md R24). -/
theorem State.ctrlWord_eq_ite (s : State) : s.ctrlWord = if s.ie then 1 else 0 := by
  unfold State.ctrlWord
  cases s.ie <;> rfl

@[simp] theorem State.statusWord_hardReset (s : State) : s.hardReset.statusWord = 0 :=
  BitVec.eq_of_toNat_eq s.hardReset.statusWord_toNat

/-- A one written to a flag of STATUS clears it, a zero keeps it (10_state.md R25). -/
theorem State.writeStatus_eq_ite (v : Word) (s : State) :
    s.writeStatus v = { s with
      done := if v.getLsbD 1 then false else s.done
      ovr := if v.getLsbD 2 then false else s.ovr } := by
  unfold State.writeStatus
  cases v.getLsbD 1 <;> cases v.getLsbD 2 <;> simp

/-! ### OVR (10_state.md R28) -/

/-- The registers 10_state.md R39 marks "dropped while BUSY". -/
theorem Reg.droppedWhileBusy_iff (r : Reg) :
    r.droppedWhileBusy = true ↔
      r ∈ [.cmd, .keyLen, .counterLo, .counterHi, .timeLo, .timeHi, .stepLo, .stepHi, .trunc,
        .digest0, .digest1, .digest2, .digest3, .digest4] ∨ ∃ j, r = .keyWord j := by
  cases r <;> simp [Reg.droppedWhileBusy]

/-- A stored write changes OVR only at STATUS, by bit 2. -/
theorem State.writeReg_ovr (r : Reg) (v : Word) (s : State) :
    (s.writeReg r v).ovr = if r = .status then s.ovr && !v.getLsbD 2 else s.ovr := by
  cases r <;> simp [State.writeReg]

/-- A command word changes OVR only if it is dropped. -/
theorem State.submitWord_ovr {w : Word} {s t : State} (h : s.submitWord w = .next t) :
    t.ovr = if s.busy then true else s.ovr := by
  rcases State.submitWord_cases h with ⟨busy, rfl⟩ | ⟨idle, e, rfl⟩ | ⟨idle, i, -, -, rfl⟩
  · simp [busy]
  · simp [idle]
  · simp [idle]

/-- OVR after a write of a register: set by a drop, cleared through STATUS, else unchanged. -/
theorem State.writeTo_ovr {r : Reg} {v : Word} {s t : State} (h : s.writeTo r v = .next t) :
    t.ovr =
      if s.busy && r.droppedWhileBusy then true
      else if r = .status then s.ovr && !v.getLsbD 2
      else s.ovr := by
  rcases State.writeTo_cases h with ⟨rfl, submitted⟩ | ⟨-, busy, dropped, rfl⟩ | ⟨-, taken, rfl⟩
  · simp [State.submitWord_ovr submitted, Reg.droppedWhileBusy]
  · simp [busy, dropped]
  · simp [taken, State.writeReg_ovr]

@[simp] theorem State.readFrom_ovr (r : Reg) (s : State) : (s.readFrom r).ovr = s.ovr := by
  rw [State.readFrom_sameEngine]

@[simp] theorem completed_ovr (job : Job) (s : State) : (completed job s).ovr = s.ovr := by
  obtain ⟨-, -, ovr, -⟩ := completed_frame job s
  exact ovr

/-- OVR after a host operation: only a write or a reset can change it. -/
def State.ovrAfter (s : State) : HostOp → Bool
  | .write off v =>
    if s.busy && (regAt s.keyMax off).droppedWhileBusy then true
    else if regAt s.keyMax off = .status then s.ovr && !v.getLsbD 2
    else s.ovr
  | .reset => false
  | _ => s.ovr

theorem hostOp_ovr {op : HostOp} {s t : State} (h : hostOp op s = .next t) : t.ovr = s.ovrAfter op := by
  rcases hostOp_cases h with ⟨off, rfl, -, rfl⟩ | ⟨off, v, rfl, -, written⟩ | ⟨rfl, rfl⟩ | ⟨rfl, same⟩ | ⟨rfl, same⟩
  · exact State.readFrom_ovr _ _
  · exact (State.writeTo_ovr written :)
  · rfl
  · rw [same]
    rfl
  · rw [same]
    rfl

end Sys2Proof.Machine

namespace Sys2Proof.Proofs

open Sys2Proof Sys2Proof.Machine

/-- Settles O10: a completion, an idle turn and every host operation but a write and reset leave OVR (by `step_cases`
and `hostOp_ovr`). -/
theorem ovrFollowsItsEvents : Obligations.OvrFollowsItsEvents := by
  refine ⟨fun s t h => ?_, Reg.droppedWhileBusy_iff⟩
  rcases step_cases h with ⟨engine, -, rfl⟩ | ⟨engine, job, -, rfl⟩ | ⟨host, none_left, rfl⟩ |
    ⟨host, op, rest, next_op, moved⟩
  · simp [engine]
  · simp [engine]
  · simp [host, none_left]
  · rw [hostOp_ovr moved, host, next_op]
    cases op <;> rfl

/-- Settles O48: STATUS is never dropped while BUSY, so its read and its write are those of the fields in place. -/
theorem statusReadsItsFieldsAndClearsByOnes : Obligations.StatusReadsItsFieldsAndClearsByOnes := by
  intro s v
  refine ⟨⟨s.statusWord, hostRead_of_not_dropped rfl (regAt_statusOffset _) rfl (by decide), ?_⟩, ?_,
    s.hardReset, rfl, s.statusWord_hardReset⟩
  · rw [s.statusWord_toNat]
    cases s.err with
    | none => rfl
    | some e => cases e <;> rfl
  · rw [hostWrite_of_not_dropped rfl (regAt_statusOffset _) rfl]
    exact congrArg _ (State.writeStatus_eq_ite v _)

/-- Settles O46: ID and CAP are written by no command and store no write. -/
theorem idAndCapReadTheirConstants : Obligations.IdAndCapReadTheirConstants := by
  intro s v legal
  exact ⟨hostRead_of_not_dropped rfl (regAt_idOffset _) rfl (by decide),
    ⟨s.capWord, State.capWord_toNat legal, hostRead_of_not_dropped rfl (regAt_capOffset _) rfl (by decide)⟩,
    hostWrite_of_not_dropped rfl (regAt_idOffset _) rfl,
    hostWrite_of_not_dropped rfl (regAt_capOffset _) rfl⟩

/-- Settles O47: CTRL is never dropped while BUSY, and its word is IE alone. -/
theorem ctrlHoldsTheInterruptEnable : Obligations.CtrlHoldsTheInterruptEnable := by
  intro s v
  refine ⟨hostWrite_of_not_dropped rfl (regAt_ctrlOffset _) rfl, ?_, s.hardReset, rfl, s.hardReset_ie⟩
  rw [← s.ctrlWord_eq_ite]
  exact hostRead_of_not_dropped rfl (regAt_ctrlOffset _) rfl (by decide)

end Sys2Proof.Proofs
end

section
/-! The RES0 offsets of the window (20_memory.md R63). -/

namespace Sys2Proof.Machine

/-- The gaps of the map and everything past the key window are RES0, whatever the capacity (10_state.md R39). -/
theorem regAt_of_reservedOffset {n : Nat} {off : Offset}
    (reserved : off.toNat = 0x038 ∨ off.toNat = 0x03C ∨ 0x054 ≤ off.toNat ∧ off.toNat ≤ 0x0FC ∨
      0x100 + n ≤ off.toNat) :
    regAt n off = .res0 := by
  have unmapped : ∀ r, (off.toNat, r) ∉ registerMap := by
    intro r listed
    simp only [registerMap, List.mem_cons, Prod.mk.injEq, List.not_mem_nil, or_false] at listed
    omega
  have outside : ¬ (0x100 ≤ off.toNat ∧ off.toNat < 0x100 + n) := by omega
  rw [regAt_of_lookup_none (lookup_eq_none unmapped), if_neg outside]

end Sys2Proof.Machine

namespace Sys2Proof.Proofs

open Sys2Proof Sys2Proof.Machine

/-- Settles O49: these offsets name RES0 (`regAt_of_reservedOffset`), which is never dropped while BUSY, reads 0 and
stores nothing. -/
theorem reservedOffsetsReadZeroAndIgnoreWrites : Obligations.ReservedOffsetsReadZeroAndIgnoreWrites := by
  intro s off v al reserved
  have at_off : regAt s.keyMax off = .res0 := regAt_of_reservedOffset reserved
  exact ⟨hostRead_of_not_dropped al at_off rfl (by decide), hostWrite_of_not_dropped al at_off rfl⟩

end Sys2Proof.Proofs
end

section
/-! `decode` on the fields of a word, opcode by opcode (30_encoding.md R91, R95). -/

namespace Sys2Proof

theorem rsvField_eq_zero_iff (w : Word) : rsvField w = 0 ↔ w.toNat / 256 = 0 := by
  rw [← rsvField_toNat, BitVec.toNat_eq]
  rfl

theorem digField_eq_zero_iff (w : Word) : digField w = 0 ↔ w.toNat / 16 % 16 = 0 := by
  rw [← digField_toNat, BitVec.toNat_eq]
  rfl

theorem withoutDigits_of_zero {w : Word} (i : Instr) (dig : w.toNat / 16 % 16 = 0) :
    withoutDigits i (digField w) = .ok i :=
  if_pos ((digField_eq_zero_iff w).mpr dig)

theorem withoutDigits_of_ne_zero {w : Word} (i : Instr) (dig : w.toNat / 16 % 16 ≠ 0) :
    withoutDigits i (digField w) = .error .digitsNotZero :=
  if_neg (mt (digField_eq_zero_iff w).mp dig)

theorem decode_of_reserved_ne_zero {w : Word} (rsv : w.toNat / 256 ≠ 0) : decode w = .error .reservedBits :=
  if_pos (mt (rsvField_eq_zero_iff w).mp rsv)

section ReservedZero

variable {w : Word} (rsv : w.toNat / 256 = 0)
include rsv

theorem decode_hotp (op : w.toNat % 16 = 0x1) : decode w = .ok (.hotp (w.toNat / 16 % 16)) := by
  simp [decode, (rsvField_eq_zero_iff w).mpr rsv, opField_toNat, op, digField_toNat]

theorem decode_totp (op : w.toNat % 16 = 0x2) : decode w = .ok (.totp (w.toNat / 16 % 16)) := by
  simp [decode, (rsvField_eq_zero_iff w).mpr rsv, opField_toNat, op, digField_toNat]

theorem decode_reduce (op : w.toNat % 16 = 0x5) : decode w = .ok (.reduce (w.toNat / 16 % 16)) := by
  simp [decode, (rsvField_eq_zero_iff w).mpr rsv, opField_toNat, op, digField_toNat]

theorem decode_hmac (op : w.toNat % 16 = 0x3) : decode w = withoutDigits .hmac (digField w) := by
  simp [decode, (rsvField_eq_zero_iff w).mpr rsv, opField_toNat, op]

theorem decode_trunc (op : w.toNat % 16 = 0x4) : decode w = withoutDigits .trunc (digField w) := by
  simp [decode, (rsvField_eq_zero_iff w).mpr rsv, opField_toNat, op]

theorem decode_clear (op : w.toNat % 16 = 0xF) : decode w = withoutDigits .clear (digField w) := by
  simp [decode, (rsvField_eq_zero_iff w).mpr rsv, opField_toNat, op]

/-- The opcodes of no command: every branch of `decode` but the last names one of the six. -/
theorem decode_illegalOpcode (op : w.toNat % 16 = 0x0 ∨ 0x6 ≤ w.toNat % 16 ∧ w.toNat % 16 ≤ 0xE) :
    decode w = .error .illegalOpcode := by
  rw [← opField_toNat] at op
  rw [decode, if_neg (not_not_intro ((rsvField_eq_zero_iff w).mpr rsv))]
  split
  case h_7 => rfl
  all_goals omega

end ReservedZero

end Sys2Proof

namespace Sys2Proof.Proofs

open Sys2Proof

/-- Settles O15: one lemma per opcode of the map; a command without digits is legal exactly when DIG is zero. -/
theorem decodeFollowsTheOpcodeMap : Obligations.DecodeFollowsTheOpcodeMap := by
  intro w
  refine ⟨fun reserved => ⟨_, decode_of_reserved_ne_zero reserved⟩, fun rsv => ⟨decode_hotp rsv, decode_totp rsv,
    decode_reduce rsv, ?_, ?_, ?_, ?_, fun op => ⟨_, decode_illegalOpcode rsv op⟩⟩⟩
  · exact fun op dig => (decode_hmac rsv op).trans (withoutDigits_of_zero _ dig)
  · exact fun op dig => (decode_trunc rsv op).trans (withoutDigits_of_zero _ dig)
  · exact fun op dig => (decode_clear rsv op).trans (withoutDigits_of_zero _ dig)
  · rintro (op | op | op) dig
    · exact ⟨_, (decode_hmac rsv op).trans (withoutDigits_of_ne_zero _ dig)⟩
    · exact ⟨_, (decode_trunc rsv op).trans (withoutDigits_of_ne_zero _ dig)⟩
    · exact ⟨_, (decode_clear rsv op).trans (withoutDigits_of_ne_zero _ dig)⟩

end Sys2Proof.Proofs
end

section
/-! SHA-1 step by step (40_hmac_sha1.md R122 to R131): the padding, the schedule word by word, the working variables
after each round and the state after each block. -/

namespace Sys2Proof.Machine

/-! ### Padding (R124) -/

theorem pad_length (m : List Byte) : (pad m).length = m.length + 1 + (119 - m.length % 64) % 64 + 8 := by
  simp only [pad, List.length_append, List.length_singleton, zeros_length, be_length]

theorem pad_length_mod (m : List Byte) : (pad m).length % 64 = 0 := by
  rw [pad_length]
  omega

/-! ### The message schedule (R129) -/

@[simp] theorem extendSchedule_length (n : Nat) (ws : List Word) :
    (extendSchedule n ws).length = n + ws.length := by
  induction n generalizing ws with
  | zero => simp [extendSchedule]
  | succ n ih => simp [extendSchedule, ih, Nat.add_assoc, Nat.add_comm 1]

/-- The words already there stay, behind the `n` new ones. -/
theorem extendSchedule_getD_old (n : Nat) (ws : List Word) (i : Nat) :
    (extendSchedule n ws).getD (n + i) 0 = ws.getD i 0 := by
  induction n generalizing ws i with
  | zero => simp [extendSchedule]
  | succ n ih =>
    rw [extendSchedule, Nat.add_right_comm, Nat.add_assoc, ih]
    rfl

/-- Each of the `n` new words is made from four older ones: the list is newest first, so W_{t-3} stands 3 places after
W_t. -/
theorem extendSchedule_getD_new (n : Nat) (ws : List Word) {i : Nat} (new : i < n) :
    (extendSchedule n ws).getD i 0 =
      rotl 1 ((extendSchedule n ws).getD (i + 3) 0 ^^^ (extendSchedule n ws).getD (i + 8) 0
        ^^^ (extendSchedule n ws).getD (i + 14) 0 ^^^ (extendSchedule n ws).getD (i + 16) 0) := by
  induction n generalizing ws with
  | zero => omega
  | succ n ih =>
    rw [extendSchedule]
    rcases Nat.lt_succ_iff_lt_or_eq.mp new with later | rfl
    · exact ih _ later
    · have first := extendSchedule_getD_old i
      simp only [first]
      exact first _ 0

@[simp] theorem blockWords_length (block : List Byte) : (blockWords block).length = 16 := by simp [blockWords]

theorem blockWords_getD (block : List Byte) {t : Nat} (ht : t ≤ 15) :
    (blockWords block).getD t 0 = wordAt block t := by
  rw [List.getD_eq_getElem _ _ (by simp; omega)]
  simp [blockWords]

@[simp] theorem schedule_length (block : List Byte) : (schedule block).length = 80 := by simp [schedule]

/-- W_t stands 79 - t places after the newest word. -/
theorem schedule_getD (block : List Byte) {t : Nat} (ht : t ≤ 79) :
    (schedule block).getD t 0 = (extendSchedule 64 (blockWords block).reverse).getD (79 - t) 0 := by
  rw [schedule, List.getD_reverse t (by simp; omega)]
  simp

theorem schedule_getD_of_le_fifteen (block : List Byte) {t : Nat} (ht : t ≤ 15) :
    (schedule block).getD t 0 = wordAt block t := by
  have place : 79 - t = 64 + (15 - t) := by omega
  have back : (blockWords block).length - 1 - (15 - t) = t := by simp; omega
  rw [schedule_getD block (by omega), place, extendSchedule_getD_old, List.getD_reverse _ (by simp; omega), back,
    blockWords_getD block ht]

theorem schedule_getD_of_sixteen_le (block : List Byte) {t : Nat} (from16 : 16 ≤ t) (ht : t ≤ 79) :
    (schedule block).getD t 0 =
      rotl 1 ((schedule block).getD (t - 3) 0 ^^^ (schedule block).getD (t - 8) 0
        ^^^ (schedule block).getD (t - 14) 0 ^^^ (schedule block).getD (t - 16) 0) := by
  have back : ∀ k, k ≤ 16 → (schedule block).getD (t - k) 0
      = (extendSchedule 64 (blockWords block).reverse).getD (79 - t + k) 0 := by
    intro k hk
    rw [schedule_getD block (by omega), show 79 - (t - k) = 79 - t + k by omega]
  rw [schedule_getD block ht, extendSchedule_getD_new 64 _ (by omega), back 3 (by omega), back 8 (by omega),
    back 14 (by omega), back 16 (by omega)]

/-! ### The rounds of one compression (R122, R127, R128, R130) -/

theorem rotl_eq_rotateLeft {n : Nat} (x : Word) (hn : n ≤ 31) : rotl n x = x.rotateLeft n := by
  rw [rotl, BitVec.rotateLeft_def, Nat.mod_eq_of_lt (by omega)]

/-- Rotation by `n` moves bit `i` to bit `(i + n) mod 32`. -/
theorem getLsbD_rotl {n i : Nat} (x : Word) (hn : n ≤ 31) (hi : i ≤ 31) :
    (rotl n x).getLsbD ((i + n) % 32) = x.getLsbD i := by
  have amount : n % 32 = n := Nat.mod_eq_of_lt (by omega)
  rw [rotl_eq_rotateLeft x hn, BitVec.getLsbD_rotateLeft, amount]
  rcases Nat.lt_or_ge (i + n) 32 with stays | wraps
  · simp [Nat.mod_eq_of_lt stays, stays]
  · have wrapped : (i + n) % 32 = i + n - 32 := by omega
    have below : i + n - 32 < n := by omega
    have source : 32 - n + (i + n - 32) = i := by omega
    simp [wrapped, below, source]

/-- Rounds 0 to 19 of the tables (R127, R128). -/
theorem roundTables_below_20 {t : Nat} (b c d : Word) (le : t ≤ 19) :
    roundFunction t b c d = (b &&& c) ^^^ (~~~b &&& d) ∧ roundConstant t = 0x5A827999 := by
  have h : t < 20 := by omega
  exact ⟨if_pos h, if_pos h⟩

/-- Rounds 20 to 39. -/
theorem roundTables_from_20 {t : Nat} (b c d : Word) (ge : 20 ≤ t) (le : t ≤ 39) :
    roundFunction t b c d = b ^^^ c ^^^ d ∧ roundConstant t = 0x6ED9EBA1 := by
  simp [roundFunction, roundConstant, show ¬ t < 20 by omega, show t < 40 by omega]

/-- Rounds 40 to 59. -/
theorem roundTables_from_40 {t : Nat} (b c d : Word) (ge : 40 ≤ t) (le : t ≤ 59) :
    roundFunction t b c d = (b &&& c) ^^^ (b &&& d) ^^^ (c &&& d) ∧ roundConstant t = 0x8F1BBCDC := by
  simp [roundFunction, roundConstant, show ¬ t < 20 by omega, show ¬ t < 40 by omega, show t < 60 by omega]

/-- Rounds 60 to 79. -/
theorem roundTables_from_60 {t : Nat} (b c d : Word) (ge : 60 ≤ t) :
    roundFunction t b c d = b ^^^ c ^^^ d ∧ roundConstant t = 0xCA62C1D6 := by
  simp [roundFunction, roundConstant, show ¬ t < 20 by omega, show ¬ t < 40 by omega, show ¬ t < 60 by omega]

theorem rounds_append (t : Nat) (ws us : List Word) (v : Digest) :
    rounds t (ws ++ us) v = rounds (t + ws.length) us (rounds t ws v) := by
  induction ws generalizing t v with
  | nil => rfl
  | cons w ws ih => simp [rounds, ih, Nat.add_assoc, Nat.add_comm 1]

/-- The working variables a to e before round `t` of `compress h block`. -/
def workingVariables (h : Digest) (block : List Byte) (t : Nat) : Digest :=
  rounds 0 ((schedule block).take t) h

theorem workingVariables_succ (h : Digest) (block : List Byte) {t : Nat} (ht : t ≤ 79) :
    workingVariables h block (t + 1) = round t ((schedule block).getD t 0) (workingVariables h block t) := by
  have inside : t < (schedule block).length := by simp; omega
  rw [workingVariables, List.take_succ_eq_append_getElem inside, rounds_append, List.getD_eq_getElem _ _ inside]
  simp [rounds, workingVariables, Nat.min_eq_left (show t ≤ 80 by omega)]

theorem compress_eq_add_workingVariables (h : Digest) (block : List Byte) :
    compress h block = h.add (workingVariables h block 80) := by
  rw [compress, workingVariables, List.take_of_length_le (by simp)]

/-! ### The blocks of a message (R125, R131) -/

theorem blocks_succ (n : Nat) (bs : List Byte) :
    blocks (n + 1) bs = blocks n bs ++ [(bs.drop (64 * n)).take 64] := by
  induction n generalizing bs with
  | zero => simp [blocks]
  | succ n ih =>
    rw [blocks, ih, blocks, List.drop_drop]
    simp [Nat.mul_succ, Nat.add_comm]

/-- The state H after the first `i` blocks of the padded message. -/
def hashAfter (m : List Byte) (i : Nat) : Digest := (blocks i (pad m)).foldl compress initialHash

theorem hashAfter_succ (m : List Byte) (i : Nat) :
    hashAfter m (i + 1) = compress (hashAfter m i) (((pad m).drop (64 * i)).take 64) := by
  simp [hashAfter, blocks_succ]

theorem sha1_eq_bytes_hashAfter (m : List Byte) : sha1 m = (hashAfter m ((pad m).length / 64)).bytes := rfl

@[simp] theorem sha1_length (m : List Byte) : (sha1 m).length = 20 := Digest.bytes_length _

/-- The first example of R131. -/
theorem sha1_abc : sha1 [0x61, 0x62, 0x63] = be 20 0xa9993e364706816aba3e25717850c26c9cd0d89d := by
  decide +kernel

/-- The second example of R131. -/
theorem sha1_nil : sha1 [] = be 20 0xda39a3ee5e6b4b0d3255bfef95601890afd80709 := by
  decide +kernel

end Sys2Proof.Machine

namespace Sys2Proof.Proofs

open Sys2Proof Sys2Proof.Machine

/-- Settles O35: both forms of k are remainders of the length by 64, so each clause is linear arithmetic. -/
theorem paddingFillsWholeBlocks : Obligations.PaddingFillsWholeBlocks := by
  intro m
  refine ⟨(119 - m.length % 64) % 64, rfl, ?_, fun j hj => ?_, ?_, pad_length_mod m⟩
  · omega
  · omega
  · omega

/-- Settles O36: the first 16 words are the block's, and each later one is made by `extendSchedule`. -/
theorem scheduleFollowsItsRecurrence : Obligations.ScheduleFollowsItsRecurrence := fun block =>
  ⟨schedule_length block, fun _ => schedule_getD_of_le_fifteen block, fun _ => schedule_getD_of_sixteen_le block⟩

/-- Settles O37: the tables range by range, and `workingVariables` as the sequence of the rounds. -/
theorem compressionRunsEightyRounds : Obligations.CompressionRunsEightyRounds := by
  refine ⟨fun t b c d => ⟨roundTables_below_20 b c d, roundTables_from_20 b c d, roundTables_from_40 b c d,
    fun ge _ => roundTables_from_60 b c d ge⟩, fun n i x => getLsbD_rotl x, fun h block => ?_⟩
  exact ⟨workingVariables h block, rfl, fun t => workingVariables_succ h block,
    compress_eq_add_workingVariables h block⟩

/-- Settles O38: `hashAfter` is the sequence of states, one block of the padded message at a time. -/
theorem sha1ChainsTheBlocksOfThePaddedMessage : Obligations.Sha1ChainsTheBlocksOfThePaddedMessage :=
  ⟨fun m => ⟨hashAfter m, rfl, fun i _ => hashAfter_succ m i, sha1_eq_bytes_hashAfter m, sha1_length m⟩, sha1_abc,
    sha1_nil⟩

end Sys2Proof.Proofs
end

section
/-! A command from its submission to its completion (60_exceptions.md R222, R229). -/

namespace Sys2Proof.Machine

/-- From IDLE, a command that passes its checks is accepted with its snapshot, and the engine's next move completes it
(60_exceptions.md R222, R225, R229). -/
theorem exec_then_engineTurn {i : Instr} {s : State} (idle : s.phase = .idle)
    (ok : firstError (commandChecks i s) = none) :
    exec i s = .next (s.accept (snapshot i s)) ∧
      engineTurn (s.accept (snapshot i s)) = .next (completed (snapshot i s) (s.accept (snapshot i s))) := by
  refine ⟨?_, ?_⟩
  · rw [exec_eq_submit, State.submit_of_ok (State.busy_of_idle idle) ok]
  · rw [engineTurn_busy rfl, complete_of_legal (snapshot_legal ok)]

end Sys2Proof.Machine
end

section
/-! HMAC-SHA1 and the HMAC command (40_hmac_sha1.md R133 to R140). -/

namespace Sys2Proof.Machine

@[simp] theorem paddedKey_length (k : List Byte) : (paddedKey k).length = 64 := by
  unfold paddedKey
  split
  · simp
    omega
  · simp

@[simp] theorem hmacSha1_length (k m : List Byte) : (hmacSha1 k m).length = 20 := sha1_length _

end Sys2Proof.Machine

namespace Sys2Proof.Proofs

open Sys2Proof Sys2Proof.Machine

/-- Settles O39 with K0 = `paddedKey k`; the lengths of the padded messages are those of `pad_length`. -/
theorem hmacIsTheNestedHashOfThePaddedKey : Obligations.HmacIsTheNestedHashOfThePaddedKey := by
  intro k m
  refine ⟨paddedKey k, paddedKey_length k, fun short => if_pos short, fun long => if_neg (by omega), rfl,
    sha1_length _, hmacSha1_length k m, fun eight => ?_⟩
  simp [pad_length, eight]

/-- Settles O22: KEY_LEN is the one check, and the completion returns the phase to the IDLE it started from. -/
theorem hmacWritesTheDigest : Obligations.HmacWritesTheDigest := by
  intro s idle fits
  have ok : firstError (commandChecks .hmac s) = none := by
    simp [commandChecks, firstError_eq_none, State.keyLenError_eq_none, fits]
  obtain ⟨accepted, completes⟩ := exec_then_engineTurn idle ok
  refine ⟨_, accepted, rfl, completes.trans ?_⟩
  rw [idle]
  rfl

end Sys2Proof.Proofs
end

section
/-! RED, and the TRUNC and REDUCE commands (41_truncate_reduce.md R165 to R176). -/

namespace Sys2Proof.Machine

/-- A 31-bit value fits the code register whole, and so does its remainder: RED is exact for every d (R165). -/
theorem reduceCode_toNat (p : BitVec 31) (d : Nat) : (reduceCode p d).toNat = p.toNat % 10 ^ d := by
  have atMost : p.toNat % 10 ^ d ≤ p.toNat := Nat.mod_le _ _
  have fits := p.isLt
  rw [reduceCode, BitVec.toNat_ofNat, Nat.mod_eq_of_lt (by omega)]

theorem reduceCode_lt (p : BitVec 31) (d : Nat) : (reduceCode p d).toNat < 10 ^ d := by
  rw [reduceCode_toNat]
  exact Nat.mod_lt _ (by positivity)

end Sys2Proof.Machine

namespace Sys2Proof.Proofs

open Sys2Proof Sys2Proof.Machine

/-- Settles O43: the remainder is exact, and 10^9 is the largest of the moduli. -/
theorem reductionIsTheRemainder : Obligations.ReductionIsTheRemainder := by
  intro p d _ atMost
  refine ⟨reduceCode_toNat p d, reduceCode_lt p d, ?_⟩
  calc 10 ^ d ≤ 10 ^ 9 := Nat.pow_le_pow_right (by omega) atMost
    _ < 2 ^ 32 := by omega

/-- Settles O23: TRUNC has no check, and the completion returns the phase to the IDLE it started from. -/
theorem truncWritesTheTruncatedValue : Obligations.TruncWritesTheTruncatedValue := by
  intro s idle
  obtain ⟨accepted, completes⟩ := exec_then_engineTurn (i := .trunc) idle rfl
  refine ⟨_, accepted, rfl, completes.trans ?_⟩
  rw [idle]
  rfl

/-- Settles O24: the digit count is the one check, and the code written is `reduceCode` of TRUNC. -/
theorem reduceWritesTheCode : Obligations.ReduceWritesTheCode := by
  intro s d idle atLeast atMost
  have ok : firstError (commandChecks (.reduce d) s) = none := by
    simp [commandChecks, firstError_eq_none, digitsError_eq_none, validDigits_iff, atLeast, atMost]
  obtain ⟨accepted, completes⟩ := exec_then_engineTurn idle ok
  refine ⟨_, accepted, rfl, reduceCode s.trunc d, reduceCode_toNat s.trunc d, reduceCode_lt s.trunc d,
    completes.trans ?_⟩
  rw [idle]
  rfl

end Sys2Proof.Proofs
end

section
/-! HOTP, TOTP and CLEAR (42_otp_commands.md R192 to R205). -/

namespace Sys2Proof.Machine

/-- TSTEP is the exact unsigned quotient (R197). -/
theorem timeStep_toNat (t x : Dword) : (timeStep t x).toNat = t.toNat / x.toNat := BitVec.toNat_udiv

/-- HOTP_F is RED of the truncation of the HMAC, so exact for every d (R191). -/
theorem hotpCode_toNat (k : List Byte) (c : Dword) (d : Nat) :
    (hotpCode k c d).toNat = (dynTruncate (counterHmac k c)).toNat % 10 ^ d := reduceCode_toNat _ d

theorem hotpChecks_pass_iff {s : State} {d : Nat} :
    firstError (commandChecks (.hotp d) s) = none ↔ s.keyLen.toNat ≤ s.keyMax ∧ 1 ≤ d ∧ d ≤ 9 := by
  simp [commandChecks, firstError_eq_none, State.keyLenError_eq_none, digitsError_eq_none, validDigits_iff]

theorem totpChecks_pass_iff {s : State} {d : Nat} :
    firstError (commandChecks (.totp d) s) = none ↔
      s.keyLen.toNat ≤ s.keyMax ∧ (1 ≤ d ∧ d ≤ 9) ∧ s.stepSeconds ≠ 0 := by
  simp [commandChecks, firstError_eq_none, State.keyLenError_eq_none, digitsError_eq_none, validDigits_iff,
    State.stepError_eq_none]

end Sys2Proof.Machine

namespace Sys2Proof.Proofs

open Sys2Proof Sys2Proof.Machine

/-- Settles O25: the code written is `hotpCode` of the latched key and counter, and the completion returns the phase to
the IDLE it started from. -/
theorem hotpWritesDigestTruncAndCode : Obligations.HotpWritesDigestTruncAndCode := by
  intro s d idle fits atLeast atMost
  obtain ⟨accepted, completes⟩ := exec_then_engineTurn idle (hotpChecks_pass_iff.mpr ⟨fits, atLeast, atMost⟩)
  refine ⟨_, accepted, rfl, hotpCode s.keyBytes s.counter d, hotpCode_toNat s.keyBytes s.counter d,
    completes.trans ?_⟩
  rw [idle]
  rfl

/-- Settles O26: the counter derived is `timeStep` of TIME and STEP, and the code is `hotpCode` at that counter. -/
theorem totpWritesCounterDigestTruncAndCode : Obligations.TotpWritesCounterDigestTruncAndCode := by
  intro s d idle fits atLeast atMost nonzero
  obtain ⟨accepted, completes⟩ :=
    exec_then_engineTurn idle (totpChecks_pass_iff.mpr ⟨fits, ⟨atLeast, atMost⟩, nonzero⟩)
  refine ⟨_, accepted, rfl, timeStep s.time s.stepSeconds, timeStep_toNat s.time s.stepSeconds,
    hotpCode s.keyBytes (timeStep s.time s.stepSeconds) d, hotpCode_toNat s.keyBytes _ d, completes.trans ?_⟩
  rw [idle]
  rfl

/-- Settles O27: CLEAR has no check, and the empty key buffer it leaves reads 0x00 at every index. -/
theorem clearErasesOperandsResultsAndKey : Obligations.ClearErasesOperandsResultsAndKey := by
  intro s idle
  obtain ⟨accepted, completes⟩ := exec_then_engineTurn (i := .clear) idle rfl
  refine ⟨_, accepted, rfl, _, completes, ?_, fun _ => rfl⟩
  rw [idle]
  rfl

end Sys2Proof.Proofs
end

section
/-! A word written to CMD: its checks in order and its outcomes (60_exceptions.md R222 to R224). -/

namespace Sys2Proof.Machine

/-! ### The checks (60_exceptions.md R223) -/

/-- A check that fails hides every later one. -/
theorem firstError_ite_cons (p : Prop) [Decidable p] (e : CmdError) (es : List (Option CmdError)) :
    firstError ((if p then some e else none) :: es) = if p then some e else firstError es := by
  split <;> rfl

theorem digitsError_eq_ite (d : Nat) :
    digitsError d = if ¬ (1 ≤ d ∧ d ≤ 9) then some .invalidDigits else none := by
  simp only [digitsError, validDigits_iff, ite_not]

/-- Steps 2 to 4 of 60_exceptions.md R223, for every command at once. -/
theorem firstError_commandChecks (i : Instr) (s : State)
    [Decidable (∃ d, i.digitCount = some d ∧ ¬ (1 ≤ d ∧ d ≤ 9))] :
    firstError (commandChecks i s) =
      if i.usesKey = true ∧ s.keyMax < s.keyLen.toNat then some .invalidKeyLen
      else if ∃ d, i.digitCount = some d ∧ ¬ (1 ≤ d ∧ d ≤ 9) then some .invalidDigits
      else if i.usesStep = true ∧ s.stepSeconds = 0 then some .invalidStep
      else none := by
  cases i <;>
    simp [commandChecks, State.keyLenError, digitsError_eq_ite, State.stepError, firstError_ite_cons, firstError,
      Instr.usesKey, Instr.digitCount, Instr.usesStep]

/-! ### The outcomes -/

theorem State.submitWord_of_busy {w : Word} {s : State} (busy : s.busy = true) :
    s.submitWord w = .next s.dropWrite := by
  unfold State.submitWord
  split
  · rw [exec_eq_submit, State.submit_of_busy busy]
  · rw [if_pos busy]

theorem State.submitWord_of_illegal {w : Word} {s : State} {e : DecodeError} (idle : s.busy = false)
    (illegal : decode w = .error e) : s.submitWord w = .next (s.reject .illegalCmd) := by
  simp [State.submitWord, illegal, idle]

theorem State.submitWord_of_legal {w : Word} {s : State} {i : Instr} (legal : decode w = .ok i) :
    s.submitWord w = s.submit (commandChecks i s) (snapshot i) := by
  simp [State.submitWord, legal, exec_eq_submit]

/-- The last read's data is no operand: neither a check nor a snapshot sees it. -/
theorem hostWrite_cmdOffset_of_legal {w : Word} {s : State} {i : Instr} (legal : decode w = .ok i) :
    hostWrite cmdOffset w s
      = { s with response := none }.submit (commandChecks i s) (fun _ => snapshot i s) := by
  rw [hostWrite_cmdOffset, State.submitWord_of_legal legal]
  cases i <;> rfl

/-- The outcomes of a write of CMD that has a next state: dropped, rejected or accepted (60_exceptions.md R222). -/
theorem hostWrite_cmdOffset_cases {w : Word} {s t : State} (h : hostWrite cmdOffset w s = .next t) :
    (s.busy = true ∧ t = { s with response := none }.dropWrite) ∨
    (s.busy = false ∧ ∃ e, t = { s with response := none }.reject e) ∨
    (s.busy = false ∧ ∃ job, t = { s with response := none }.accept job) := by
  rw [hostWrite_cmdOffset] at h
  rcases State.submitWord_cases h with dropped | rejected | ⟨idle, i, -, -, accepted⟩
  · exact .inl dropped
  · exact .inr (.inl rejected)
  · exact .inr (.inr ⟨idle, _, accepted⟩)

end Sys2Proof.Machine

namespace Sys2Proof.Proofs

open Sys2Proof Sys2Proof.Machine

/-- Settles O19: `submit` acts on the first error of the command's checks, which `firstError_commandChecks` gives in the
order of the rule. -/
theorem submissionChecksInOrder : Obligations.SubmissionChecksInOrder := by
  classical
  intro s w rejected
  refine ⟨fun busy => ?_, fun idle => ⟨fun e illegal => ?_, fun i legal => ?_⟩⟩
  · exact (hostWrite_cmdOffset w s).trans (State.submitWord_of_busy busy)
  · exact (hostWrite_cmdOffset w s).trans (State.submitWord_of_illegal idle illegal)
  · intro keyTooLong badDigits badStep
    have submitted := hostWrite_cmdOffset_of_legal (s := s) legal
    have errors := firstError_commandChecks i s
    refine ⟨fun long => ?_, fun fits bad => ?_, fun fits good zero => ?_, fun fits good nonzero => ?_⟩
    · exact submitted.trans (State.submit_of_error idle (errors.trans (if_pos long)))
    · rw [if_neg fits, if_pos bad] at errors
      exact submitted.trans (State.submit_of_error idle errors)
    · rw [if_neg fits, if_neg good, if_pos zero] at errors
      exact submitted.trans (State.submit_of_error idle errors)
    · rw [if_neg fits, if_neg good, if_neg nonzero] at errors
      exact submitted.trans (State.submit_of_ok idle errors)

/-- Settles O20: of the outcomes of a write of CMD, only a rejection goes from IDLE to IDLE. -/
theorem rejectionChangesErrAndDoneOnly : Obligations.RejectionChangesErrAndDoneOnly := by
  intro s t w idle written stillIdle
  rcases hostWrite_cmdOffset_cases written with ⟨busy, -⟩ | ⟨-, e, rfl⟩ | ⟨-, job, rfl⟩
  · simp [State.busy_of_idle idle] at busy
  · exact ⟨rfl, by simp⟩
  · simp at stillIdle

end Sys2Proof.Proofs
end

section
/-! The interrupt (60_exceptions.md R232). -/

namespace Sys2Proof.Machine

/-! ### IRQ after each of the engine's state changes -/

@[simp] theorem State.irq_dropWrite (s : State) : s.dropWrite.irq = s.irq := rfl

@[simp] theorem State.irq_reject (e : CmdError) (s : State) : (s.reject e).irq = s.ie := by simp [State.irq]

@[simp] theorem State.irq_accept (job : Job) (s : State) : (s.accept job).irq = false := by simp [State.irq]

@[simp] theorem State.irq_hardReset (s : State) : s.hardReset.irq = false := rfl

theorem State.irq_writeStatus (v : Word) (s : State) : (s.writeStatus v).irq = (s.irq && !v.getLsbD 1) := by
  simp [State.irq, Bool.and_assoc]

theorem State.irq_writeCtrl (v : Word) (s : State) : (s.writeCtrl v).irq = (v.getLsbD 0 && s.done) := rfl

@[simp] theorem completed_irq (job : Job) (s : State) : (completed job s).irq = s.ie := by
  obtain ⟨-, ie, -⟩ := completed_frame job s
  simp [State.irq, ie]

/-! ### IRQ after a write of CMD -/

theorem hostWrite_cmdOffset_irq_of_idle {w : Word} {s t : State} (idle : s.busy = false)
    (h : hostWrite cmdOffset w s = .next t) : t.irq = (s.ie && !t.busy) := by
  rcases hostWrite_cmdOffset_cases h with ⟨busy, -⟩ | ⟨-, e, rfl⟩ | ⟨-, job, rfl⟩
  · simp [idle] at busy
  · have stillIdle : State.busy { s with response := none } = false := idle
    simp [stillIdle]
  · simp

theorem hostWrite_cmdOffset_irq_of_busy {w : Word} {s t : State} (busy : s.busy = true)
    (h : hostWrite cmdOffset w s = .next t) : t.irq = s.irq := by
  rcases hostWrite_cmdOffset_cases h with ⟨-, rfl⟩ | ⟨idle, -⟩ | ⟨idle, -⟩
  · rfl
  · simp [busy] at idle
  · simp [busy] at idle

end Sys2Proof.Machine

namespace Sys2Proof.Proofs

open Sys2Proof Sys2Proof.Machine

/-- Settles O57: each event's new state is known by name (`completed`, `writeStatus`, `writeCtrl`, `hardReset`, and the
outcomes of a write of CMD), and so is its IRQ. -/
theorem interruptFollowsEnableAndDone : Obligations.InterruptFollowsEnableAndDone := by
  intro s
  refine ⟨rfl, fun job t busy completes => ?_, fun w t idle => ?_, fun w t => hostWrite_cmdOffset_irq_of_busy,
    fun v t clears written => ?_, fun v t disables written => ?_, fun t reset => ?_⟩
  · rw [engineTurn_busy busy] at completes
    rw [complete_cases completes, completed_irq]
  · exact hostWrite_cmdOffset_irq_of_idle (State.busy_of_idle idle)
  · rw [hostWrite_of_not_dropped rfl (regAt_statusOffset _) rfl] at written
    cases written
    simp [State.writeReg, State.irq_writeStatus, clears]
  · rw [hostWrite_of_not_dropped rfl (regAt_ctrlOffset _) rfl] at written
    cases written
    exact ⟨(State.irq_writeCtrl v _).trans (by simp only [disables, Bool.false_and]), rfl⟩
  · cases reset
    exact s.irq_hardReset

end Sys2Proof.Proofs
end

section
/-! What a host operation can do, outcome by outcome, and what each outcome leaves of a field (10_state.md R21, R27,
R29, R35, R38). -/

namespace Sys2Proof.Machine

/-! ### Writes of a register (20_memory.md R62) -/

@[simp] theorem State.writeReg_phase (r : Reg) (v : Word) (s : State) : (s.writeReg r v).phase = s.phase := by
  cases r <;> rfl

@[simp] theorem State.writeReg_err (r : Reg) (v : Word) (s : State) : (s.writeReg r v).err = s.err := by
  cases r <;> rfl

@[simp] theorem State.writeReg_code (r : Reg) (v : Word) (s : State) : (s.writeReg r v).code = s.code := by
  cases r <;> rfl

@[simp] theorem State.writeReg_host (r : Reg) (v : Word) (s : State) : (s.writeReg r v).host = s.host := by
  cases r <;> rfl

@[simp] theorem State.writeReg_turns (r : Reg) (v : Word) (s : State) : (s.writeReg r v).turns = s.turns := by
  cases r <;> rfl

/-- A stored write changes DONE only at STATUS, by bit 1. -/
theorem State.writeReg_done (r : Reg) (v : Word) (s : State) :
    (s.writeReg r v).done = if r = .status then s.done && !v.getLsbD 1 else s.done := by
  cases r <;> simp [State.writeReg]

/-- A stored write changes IE only at CTRL. -/
theorem State.writeReg_ie (r : Reg) (v : Word) (s : State) :
    (s.writeReg r v).ie = if r = .ctrl then v.getLsbD 0 else s.ie := by
  cases r <;> simp [State.writeReg]

/-- A stored write changes the key buffer only at the key window. -/
theorem State.writeReg_key_cases (r : Reg) (v : Word) (s : State) :
    (s.writeReg r v).key = s.key ∨ ∃ j, r = .keyWord j := by
  cases r with
  | keyWord j => exact .inr ⟨j, rfl⟩
  | _ => exact .inl rfl

/-- A write that is not dropped while BUSY touches CTRL and STATUS alone. -/
theorem State.writeReg_of_not_dropped {r : Reg} (kept : r.droppedWhileBusy = false) (v : Word) (s : State) :
    s.writeReg r v = { s with
      ie := (s.writeReg r v).ie, done := (s.writeReg r v).done, ovr := (s.writeReg r v).ovr } := by
  cases r with
  | id | cap | ctrl | status | code | res0 => rfl
  | _ => cases kept

/-- The outcomes of a write of a register: dropped while BUSY, a command rejected, a command accepted, or stored
(20_memory.md R62, 60_exceptions.md R222). -/
theorem State.writeTo_outcomes {r : Reg} {v : Word} {s t : State} (h : s.writeTo r v = .next t) :
    (s.busy = true ∧ r.droppedWhileBusy = true ∧ t = s.dropWrite) ∨
    (r = .cmd ∧ s.busy = false ∧ ∃ e, t = s.reject e) ∨
    (r = .cmd ∧ s.busy = false ∧ ∃ i, decode v = .ok i ∧ firstError (commandChecks i s) = none ∧
      t = s.accept (snapshot i s)) ∨
    (r ≠ .cmd ∧ (s.busy = true → r.droppedWhileBusy = false) ∧ t = s.writeReg r v) := by
  rcases State.writeTo_cases h with ⟨rfl, submitted⟩ | ⟨-, busy, dropped, rfl⟩ | ⟨ne, taken, rfl⟩
  · rcases State.submitWord_cases submitted with ⟨busy, rfl⟩ | ⟨idle, rejected⟩ | ⟨idle, accepted⟩
    · exact .inl ⟨busy, rfl, rfl⟩
    · exact .inr (.inl ⟨rfl, idle, rejected⟩)
    · exact .inr (.inr (.inl ⟨rfl, idle, accepted⟩))
  · exact .inl ⟨busy, dropped, rfl⟩
  · exact .inr (.inr (.inr ⟨ne, fun busy => by simpa [busy] using taken, rfl⟩))

/-! ### Host operations -/

/-- An operation answers with a next state exactly when it is one the host may issue (20_memory.md R64, R65). -/
theorem hostOp_next_iff (op : HostOp) (s : State) : (∃ t, hostOp op s = .next t) ↔ op.admitted = true := by
  cases op with
  | read off => cases al : aligned off <;> simp [hostOp, hostRead, HostOp.admitted, al]
  | write off v =>
    have next := State.writeTo_next (regAt s.keyMax off) v { s with response := none }
    cases al : aligned off <;> simp [hostOp, hostWrite, HostOp.admitted, al, next]
  | otherWidth width off => simp [hostOp, HostOp.admitted]
  | reset => simp [hostOp, HostOp.admitted]
  | wait => cases b : s.busy <;> simp [hostOp, HostOp.admitted, b]
  | waitIrq => cases b : s.irq <;> simp [hostOp, HostOp.admitted, b]

/-- No host operation faults. -/
theorem hostOp_ne_fault (op : HostOp) (s : State) (f : Fault) : hostOp op s ≠ .fault f := by
  intro h
  cases ok : op.admitted with
  | true =>
    obtain ⟨t, ht⟩ := (hostOp_next_iff op s).mpr ok
    exact nomatch h.symm.trans ht
  | false =>
    cases op with
    | read off => simp_all [hostOp, hostRead, HostOp.admitted]
    | write off v => simp_all [hostOp, hostWrite, HostOp.admitted]
    | otherWidth width off => exact nomatch h
    | reset => exact nomatch ok
    | wait => exact nomatch ok
    | waitIrq => exact nomatch ok

/-- The outcomes of a host operation that has a next state. A read and the two waits leave every piece of the engine's
state. -/
theorem hostOp_outcomes {op : HostOp} {s t : State} (h : hostOp op s = .next t) :
    ((∀ off v, op ≠ .write off v) ∧ op ≠ .reset ∧ s.sameEngine t) ∨
    (op = .reset ∧ t = s.hardReset) ∨
    ∃ off v, op = .write off v ∧ { s with response := none }.writeTo (regAt s.keyMax off) v = .next t := by
  rcases hostOp_cases h with ⟨off, rfl, -, rfl⟩ | ⟨off, v, rfl, -, written⟩ | ⟨rfl, rfl⟩ | ⟨rfl, same⟩ | ⟨rfl, same⟩
  · refine .inl ⟨by simp, by simp, ?_⟩
    rw [State.sameEngine, State.readFrom_sameEngine]
  · exact .inr (.inr ⟨off, v, rfl, written⟩)
  · exact .inr (.inl ⟨rfl, rfl⟩)
  · refine .inl ⟨by simp, by simp, ?_⟩
    rw [State.sameEngine, same]
  · refine .inl ⟨by simp, by simp, ?_⟩
    rw [State.sameEngine, same]

/-! ### The operation a step performs -/

theorem State.hostNext_of_engine {s : State} (h : s.mover = .engine) : s.hostNext = none := by
  simp [State.hostNext, h]

theorem State.hostNext_of_host {s : State} (h : s.mover = .host) : s.hostNext = s.host.head? := by
  simp [State.hostNext, h]

/-- `s` with its next turn and its next operation used up. -/
abbrev State.issued (s : State) : State := { s.taken with host := s.host.tail }

/-- The outcomes of a step: the engine's move from IDLE or a host with nothing to do changes nothing but the turns; the
engine's move from BUSY completes the job; else the host performs its next operation. -/
theorem step_outcomes {s t : State} (h : step s = .next t) :
    (s.hostNext = none ∧ (s.mover = .engine → s.phase = .idle) ∧ (s.mover = .host → s.host = []) ∧ t = s.taken) ∨
    (s.mover = .engine ∧ ∃ job, s.phase = .busy job ∧ t = completed job s.taken) ∨
    (s.mover = .host ∧ ∃ op rest, s.host = op :: rest ∧ s.hostNext = some op ∧ hostOp op s.issued = .next t) := by
  rcases step_cases h with ⟨engine, idle, rfl⟩ | ⟨engine, job, busy, rfl⟩ | ⟨host, none_left, rfl⟩ |
    ⟨host, op, rest, next_op, moved⟩
  · exact .inl ⟨State.hostNext_of_engine engine, fun _ => idle, by simp [engine], rfl⟩
  · exact .inr (.inl ⟨engine, job, busy, rfl⟩)
  · exact .inl ⟨by simp [State.hostNext_of_host host, none_left], by simp [host], fun _ => none_left, rfl⟩
  · exact .inr (.inr ⟨host, op, rest, next_op, by simp [State.hostNext_of_host host, next_op], by
      simpa [State.issued, next_op] using moved⟩)

end Sys2Proof.Machine
end

section
/-! The invariant: what each outcome of a step keeps of it (10_state.md R35, R38, 60_exceptions.md R225 to R230). -/

namespace Sys2Proof.Machine

/-! ### The part of the invariant that speaks of no command -/

/-- What `State.Inv` says in either phase: a legal capacity, a canonical key buffer inside it, CODE below 10^9. -/
structure State.Sound (s : State) : Prop where
  keyMaxLegal : Config.LegalKeyMax s.keyMax
  keyCanonical : s.key.wf
  keyInside : ∀ c ∈ s.key, c.1 < s.keyMax
  codeInRange : s.code.toNat < 10 ^ 9

theorem State.Inv.sound {s : State} (h : s.Inv) : s.Sound :=
  ⟨h.keyMaxLegal, h.keyCanonical, h.keyInside, h.codeInRange⟩

/-- While IDLE there is no more to the invariant. -/
theorem State.Sound.inv_of_idle {s : State} (h : s.Sound) (idle : s.phase = .idle) : s.Inv where
  keyMaxLegal := h.keyMaxLegal
  keyCanonical := h.keyCanonical
  keyInside := h.keyInside
  doneNotBusy := by simp [State.busy_of_idle idle]
  busyNoError := by simp [State.busy_of_idle idle]
  snapshotCurrent := by simp [idle]
  jobLegal := by simp [idle]
  codeInRange := h.codeInRange

/-- The invariant survives any change of CTRL, of OVR and of the model's own fields, and a DONE that is not set. -/
theorem State.Inv.of_flags {s t : State} (inv : s.Inv)
    (same : t = { s with
      ie := t.ie, done := t.done, ovr := t.ovr, host := t.host, turns := t.turns, response := t.response,
      draws := t.draws })
    (done : s.done = false → t.done = false) : t.Inv := by
  have phase : t.phase = s.phase := by rw [same]
  have busy : t.busy = s.busy := State.busy_congr phase
  have keyMax : t.keyMax = s.keyMax := by rw [same]
  have key : t.key = s.key := by rw [same]
  have err : t.err = s.err := by rw [same]
  have code : t.code = s.code := by rw [same]
  have snap : ∀ i, snapshot i t = snapshot i s := fun i => by
    apply snapshot_congr <;> rw [same]
  exact
    { keyMaxLegal := keyMax ▸ inv.keyMaxLegal
      keyCanonical := key ▸ inv.keyCanonical
      keyInside := key ▸ keyMax ▸ inv.keyInside
      doneNotBusy := fun b => done (inv.doneNotBusy (busy ▸ b))
      busyNoError := fun b => err ▸ inv.busyNoError (busy ▸ b)
      snapshotCurrent := fun job p => (inv.snapshotCurrent job (phase ▸ p)).trans (snap _).symm
      jobLegal := fun job p => keyMax ▸ inv.jobLegal job (phase ▸ p)
      codeInRange := code ▸ inv.codeInRange }

theorem State.Inv.of_sameEngine {s t : State} (inv : s.Inv) (same : s.sameEngine t) : t.Inv := by
  unfold State.sameEngine at same
  refine inv.of_flags ?_ ?_
  · rw [same]
  · rw [same]
    exact id

/-! ### Acceptance, stored writes and completion -/

/-- An accepted command's job is the snapshot of the state it leaves, and has passed its checks. -/
theorem State.Sound.inv_accept {s : State} (sound : s.Sound) {i : Instr}
    (ok : firstError (commandChecks i s) = none) : (s.accept (snapshot i s)).Inv where
  keyMaxLegal := sound.keyMaxLegal
  keyCanonical := sound.keyCanonical
  keyInside := sound.keyInside
  doneNotBusy := fun _ => rfl
  busyNoError := fun _ => rfl
  snapshotCurrent := by
    rintro job ⟨⟩
    rw [command_snapshot]
    exact snapshot_congr i rfl rfl rfl rfl rfl rfl rfl
  jobLegal := by
    rintro job ⟨⟩
    exact snapshot_legal ok
  codeInRange := sound.codeInRange

/-- A key-window write keeps the buffer canonical and inside its capacity. -/
theorem State.Sound.after_writeKeyWord {s : State} (sound : s.Sound) {j : Nat} (fits : 4 * j + 4 ≤ s.keyMax)
    (v : Word) : (s.writeKeyWord j v).Sound where
  keyMaxLegal := sound.keyMaxLegal
  keyCanonical := Memory.writeBytes_wf sound.keyCanonical _ _
  keyInside := Memory.writeBytes_inside sound.keyInside (by simpa using fits)
  codeInRange := sound.codeInRange

/-- The capacity is a multiple of 4, so every word of the key window lies whole inside the buffer (10_state.md R35). -/
theorem keyWord_fits {n j : Nat} {off : Offset} (legal : Config.LegalKeyMax n) (h : regAt n off = .keyWord j) :
    4 * j + 4 ≤ n := by
  obtain ⟨-, -, mult⟩ := legal
  obtain ⟨place, inside⟩ := regAt_keyWord h
  omega

theorem State.Sound.after_writeReg {s : State} (sound : s.Sound) {off : Offset} (v : Word) :
    (s.writeReg (regAt s.keyMax off) v).Sound := by
  rcases State.writeReg_key_cases (regAt s.keyMax off) v s with key | ⟨j, at_off⟩
  · exact
      { keyMaxLegal := by simpa using sound.keyMaxLegal
        keyCanonical := key ▸ sound.keyCanonical
        keyInside := by simpa [key] using sound.keyInside
        codeInRange := by simpa using sound.codeInRange }
  · rw [at_off]
    exact sound.after_writeKeyWord (keyWord_fits sound.keyMaxLegal at_off) v

/-- A code of 1 to 9 digits lies below 10^9 (10_state.md R38). -/
theorem reduceCode_lt_of_validDigits (p : BitVec 31) {d : Nat} (valid : validDigits d = true) :
    (reduceCode p d).toNat < 10 ^ 9 := by
  obtain ⟨-, atMost⟩ := validDigits_iff.mp valid
  exact (reduceCode_lt p d).trans_le (Nat.pow_le_pow_right (by omega) atMost)

/-- A completion writes CODE by a legal digit count or not at all, but for CLEAR, which zeroes it. -/
theorem completed_code_lt {s : State} {job : Job} (legal : job.legal s.keyMax) (before : s.code.toNat < 10 ^ 9) :
    (completed job s).code.toNat < 10 ^ 9 := by
  cases job with
  | hotp d key counter => exact reduceCode_lt_of_validDigits _ legal.2
  | totp d key time x =>
    obtain ⟨-, valid, -⟩ := legal
    exact reduceCode_lt_of_validDigits _ valid
  | hmac key counter => exact before
  | trunc digest => exact before
  | reduce d p => exact reduceCode_lt_of_validDigits p legal
  | clear => simp [completed]

/-- Only CLEAR writes the key buffer, and it empties it (10_state.md R40). -/
theorem completed_key (job : Job) (s : State) : (completed job s).key = if job = .clear then [] else s.key := by
  cases job <;> rfl

theorem State.Sound.after_completion {s : State} (sound : s.Sound) {job : Job} (legal : job.legal s.keyMax) :
    (completed job s).Sound := by
  obtain ⟨keyMax, -⟩ := completed_frame job s
  refine ⟨keyMax ▸ sound.keyMaxLegal, ?_, ?_, completed_code_lt legal sound.codeInRange⟩
  · rw [completed_key]
    split
    · exact Memory.wf_nil
    · exact sound.keyCanonical
  · rw [completed_key, keyMax]
    split
    · simp
    · exact sound.keyInside

/-! ### Reset -/

theorem State.sound_hardReset {s : State} (legal : Config.LegalKeyMax s.keyMax) : s.hardReset.Sound :=
  ⟨legal, Memory.wf_nil, by simp, by simp⟩

theorem State.Inv.after_hardReset {s : State} (inv : s.Inv) : s.hardReset.Inv :=
  (State.sound_hardReset inv.keyMaxLegal).inv_of_idle rfl

/-! ### Every step -/

/-- A write of a register keeps the invariant: while BUSY it changes no operand, while IDLE there is only the buffer to
keep. -/
theorem State.Inv.after_writeTo {s t : State} (inv : s.Inv) {off : Offset} {v : Word}
    (h : s.writeTo (regAt s.keyMax off) v = .next t) : t.Inv := by
  rcases State.writeTo_outcomes h with ⟨-, -, rfl⟩ | ⟨-, idle, e, rfl⟩ | ⟨-, -, i, -, ok, rfl⟩ | ⟨-, kept, rfl⟩
  · exact inv.of_flags rfl id
  · exact State.Sound.inv_of_idle ⟨inv.keyMaxLegal, inv.keyCanonical, inv.keyInside, inv.codeInRange⟩
      (State.not_busy_iff.mp idle)
  · exact inv.sound.inv_accept ok
  · cases busy : s.busy with
    | false => exact (inv.sound.after_writeReg v).inv_of_idle (by simpa using State.not_busy_iff.mp busy)
    | true =>
      refine inv.of_flags ?_ fun notDone => by simp [State.writeReg_done, notDone]
      rw [State.writeReg_of_not_dropped (kept busy) v s]

theorem State.Inv.after_hostOp {op : HostOp} {s t : State} (inv : s.Inv) (h : hostOp op s = .next t) : t.Inv := by
  rcases hostOp_outcomes h with ⟨-, -, same⟩ | ⟨-, rfl⟩ | ⟨off, v, -, written⟩
  · exact inv.of_sameEngine same
  · exact inv.after_hardReset
  · have quiet : State.Inv { s with response := none } := inv.of_sameEngine rfl
    exact quiet.after_writeTo (off := off) written

/-- Every step keeps the invariant. -/
theorem State.Inv.after_step {s t : State} (inv : s.Inv) (h : step s = .next t) : t.Inv := by
  rcases step_outcomes h with ⟨-, -, -, rfl⟩ | ⟨-, job, busy, rfl⟩ | ⟨-, op, rest, -, -, moved⟩
  · exact inv.of_sameEngine rfl
  · have taken : s.taken.Inv := inv.of_sameEngine rfl
    exact (taken.sound.after_completion (taken.jobLegal job busy)).inv_of_idle (completed_phase job _)
  · have issued : s.issued.Inv := inv.of_sameEngine rfl
    exact issued.after_hostOp moved

end Sys2Proof.Machine

namespace Sys2Proof.Proofs

open Sys2Proof Sys2Proof.Machine

/-- Settles O5: `State.Inv.after_step`, one lemma per outcome of a step. -/
theorem everyStepKeepsTheInvariant : Obligations.EveryStepKeepsTheInvariant := fun _ _ inv => inv.after_step

/-- Settles O4: the state after reset is IDLE, with an empty key buffer and CODE 0, at any legal capacity. -/
theorem resetMeetsTheInvariant : Obligations.ResetMeetsTheInvariant := by
  have meets : ∀ n, Config.LegalKeyMax n → State.Inv { State.reset with keyMax := n } := fun n legal =>
    State.Inv.of_sameEngine ((State.sound_hardReset (s := { State.reset with keyMax := n }) legal).inv_of_idle rfl) rfl
  exact ⟨meets _ (by decide), meets⟩

end Sys2Proof.Proofs
end

section
/-! `encode` and `decode` undo each other, and the 51 legal words (30_encoding.md R95, R96, R99). -/

namespace Sys2Proof

/-! ### Decoding an encoded command -/

/-- The three fields of (d << 4) | op, as the decoder reads them. -/
theorem digitsWord_fields_toNat {d : Nat} {op : Word} (hd : d ≤ 15) (hop : op.toNat < 16) :
    (digitsWord d op).toNat / 256 = 0 ∧ (digitsWord d op).toNat % 16 = op.toNat ∧
      (digitsWord d op).toNat / 16 % 16 = d := by
  rw [digitsWord_toNat hd hop]
  omega

theorem decode_encode {i : Instr} (wf : i.wellFormed = true) : decode (encode i) = .ok i := by
  cases i with
  | hotp d =>
    obtain ⟨rsv, op, dig⟩ := digitsWord_fields_toNat (op := 0x1) (of_decide_eq_true wf) (by decide)
    rw [encode, decode_hotp rsv op, dig]
  | totp d =>
    obtain ⟨rsv, op, dig⟩ := digitsWord_fields_toNat (op := 0x2) (of_decide_eq_true wf) (by decide)
    rw [encode, decode_totp rsv op, dig]
  | reduce d =>
    obtain ⟨rsv, op, dig⟩ := digitsWord_fields_toNat (op := 0x5) (of_decide_eq_true wf) (by decide)
    rw [encode, decode_reduce rsv op, dig]
  | hmac => decide
  | trunc => decide
  | clear => decide

/-! ### Encoding a decoded word -/

/-- A command without digits is read only from a word with DIG = 0. -/
theorem withoutDigits_ok_iff {w : Word} {i j : Instr} :
    withoutDigits i (digField w) = .ok j ↔ w.toNat / 16 % 16 = 0 ∧ j = i := by
  by_cases dig : w.toNat / 16 % 16 = 0
  · simp [withoutDigits_of_zero i dig, dig, eq_comm]
  · simp [withoutDigits_of_ne_zero i dig, dig]

/-- A word with RSV = 0 and an opcode with digits is (DIG << 4) | OP. -/
theorem digitsWord_of_fields {w op : Word} (rsv : w.toNat / 256 = 0) (hop : w.toNat % 16 = op.toNat) :
    encodableDigits (w.toNat / 16 % 16) = true ∧ digitsWord (w.toNat / 16 % 16) op = w := by
  have dig : w.toNat / 16 % 16 ≤ 15 := by omega
  refine ⟨decide_eq_true dig, BitVec.eq_of_toNat_eq ?_⟩
  rw [digitsWord_toNat dig (by omega)]
  omega

/-- A word with RSV = 0 and DIG = 0 is its opcode. -/
theorem opcode_eq_of_fields {w op : Word} (rsv : w.toNat / 256 = 0) (hop : w.toNat % 16 = op.toNat)
    (dig : w.toNat / 16 % 16 = 0) : op = w := BitVec.eq_of_toNat_eq (by omega)

theorem encode_decode {w : Word} {i : Instr} (h : decode w = .ok i) : i.wellFormed = true ∧ encode i = w := by
  have rsv : w.toNat / 256 = 0 := by
    by_contra rsv
    exact nomatch (decode_of_reserved_ne_zero rsv).symm.trans h
  have op : w.toNat % 16 = 1 ∨ w.toNat % 16 = 2 ∨ w.toNat % 16 = 5 ∨ w.toNat % 16 = 3 ∨ w.toNat % 16 = 4 ∨
      w.toNat % 16 = 15 := by
    by_contra op
    exact nomatch (decode_illegalOpcode rsv (by omega)).symm.trans h
  rcases op with op | op | op | op | op | op
  · cases (decode_hotp rsv op).symm.trans h
    exact digitsWord_of_fields rsv op
  · cases (decode_totp rsv op).symm.trans h
    exact digitsWord_of_fields rsv op
  · cases (decode_reduce rsv op).symm.trans h
    exact digitsWord_of_fields rsv op
  · obtain ⟨dig, rfl⟩ := withoutDigits_ok_iff.mp ((decode_hmac rsv op).symm.trans h)
    exact ⟨rfl, opcode_eq_of_fields rsv op dig⟩
  · obtain ⟨dig, rfl⟩ := withoutDigits_ok_iff.mp ((decode_trunc rsv op).symm.trans h)
    exact ⟨rfl, opcode_eq_of_fields rsv op dig⟩
  · obtain ⟨dig, rfl⟩ := withoutDigits_ok_iff.mp ((decode_clear rsv op).symm.trans h)
    exact ⟨rfl, opcode_eq_of_fields rsv op dig⟩

/-! ### The legal and the acceptable commands (R96) -/

/-- The commands whose digit count, if they have one, stands in `digits`. -/
def commandsWithDigits (digits : List Nat) : List Instr :=
  [.hmac, .trunc, .clear] ++ digits.map .hotp ++ digits.map .totp ++ digits.map .reduce

theorem mem_commandsWithDigits {digits : List Nat} {i : Instr} :
    i ∈ commandsWithDigits digits ↔ ∀ d, i.digitCount = some d → d ∈ digits := by
  cases i <;> simp [commandsWithDigits, Instr.digitCount]

theorem Instr.wellFormed_iff {i : Instr} : i.wellFormed = true ↔ ∀ d, i.digitCount = some d → d ≤ 15 := by
  cases i <;> simp [Instr.wellFormed, encodableDigits, Instr.digitCount]

/-- The words of those commands. -/
def wordsWithDigits (digits : List Nat) : List Word := (commandsWithDigits digits).map encode

section

variable {digits : List Nat} (encodable : ∀ d ∈ digits, d ≤ 15)
include encodable

theorem wellFormed_of_mem {i : Instr} (h : i ∈ commandsWithDigits digits) : i.wellFormed = true :=
  Instr.wellFormed_iff.mpr fun d hd => encodable d (mem_commandsWithDigits.mp h d hd)

/-- Each word decodes to its one command, so distinct commands have distinct words. -/
theorem wordsWithDigits_nodup (distinct : (commandsWithDigits digits).Nodup) : (wordsWithDigits digits).Nodup := by
  refine distinct.map_on fun i hi j hj same => ?_
  have := decode_encode (wellFormed_of_mem encodable hi)
  rw [same, decode_encode (wellFormed_of_mem encodable hj)] at this
  exact (Except.ok.inj this).symm

theorem mem_wordsWithDigits {w : Word} :
    w ∈ wordsWithDigits digits ↔ ∃ i, decode w = .ok i ∧ ∀ d, i.digitCount = some d → d ∈ digits := by
  simp only [wordsWithDigits, List.mem_map]
  constructor
  · rintro ⟨i, hi, rfl⟩
    exact ⟨i, decode_encode (wellFormed_of_mem encodable hi), mem_commandsWithDigits.mp hi⟩
  · rintro ⟨i, hw, hi⟩
    exact ⟨i, mem_commandsWithDigits.mpr hi, (encode_decode hw).2⟩

end

end Sys2Proof

namespace Sys2Proof.Machine

/-- The commands an IDLE engine can accept are those with a valid digit count (60_exceptions.md R223): right after reset
no other check fails. -/
theorem acceptable_iff {i : Instr} :
    (∃ s : State, s.phase = .idle ∧ firstError (commandChecks i s) = none) ↔
      ∀ d, i.digitCount = some d → validDigits d = true := by
  constructor
  · rintro ⟨s, -, ok⟩ d hd
    rw [firstError_eq_none] at ok
    cases i <;> cases hd <;> exact digitsError_eq_none.mp (ok _ (by simp [commandChecks]))
  · intro valid
    refine ⟨State.reset, rfl, firstError_eq_none.mpr ?_⟩
    have keyLen : State.reset.keyLenError = none := by decide
    have step : State.reset.stepError = none := by decide
    cases i <;> simp_all [commandChecks, Instr.digitCount, digitsError_eq_none]

/-- A word is accepted by some IDLE engine exactly when its command is acceptable. -/
theorem submitWord_accepted_iff {w : Word} :
    (∃ s t : State, s.phase = .idle ∧ s.submitWord w = .next t ∧ t.busy = true) ↔
      ∃ i, decode w = .ok i ∧ ∀ d, i.digitCount = some d → validDigits d = true := by
  constructor
  · rintro ⟨s, t, idle, submitted, accepted⟩
    rcases State.submitWord_cases submitted with ⟨busy, -⟩ | ⟨notBusy, e, rfl⟩ | ⟨-, i, legal, ok, -⟩
    · simp [State.busy_of_idle idle] at busy
    · simp [notBusy] at accepted
    · exact ⟨i, legal, acceptable_iff.mp ⟨s, idle, ok⟩⟩
  · rintro ⟨i, legal, valid⟩
    obtain ⟨s, idle, ok⟩ := acceptable_iff.mpr valid
    exact ⟨s, s.accept (snapshot i s), idle,
      (State.submitWord_of_legal legal).trans (State.submit_of_ok (State.busy_of_idle idle) ok), rfl⟩

end Sys2Proof.Machine

namespace Sys2Proof.Proofs

open Sys2Proof Sys2Proof.Machine

/-- Settles O13: the fields of the encoded word are the opcode and the digit count (`decode_encode`). -/
theorem decodeOfEncodeIsTheCommand : Obligations.DecodeOfEncodeIsTheCommand :=
  ⟨fun _ wf => ⟨if_pos wf, decode_encode wf⟩, fun _ refused => if_neg (by simp [refused])⟩

/-- Settles O14: a legal word is the sum of its two fields, which the command it decodes to holds (`encode_decode`). -/
theorem encodeOfDecodeIsTheWord : Obligations.EncodeOfDecodeIsTheWord := fun _ _ => encode_decode

/-- Settles O16: the legal words are those of the digit counts 0 to 15, the acceptable ones those of 1 to 9. -/
theorem fiftyOneWordsAreLegalThirtyAcceptable : Obligations.FiftyOneWordsAreLegalThirtyAcceptable := by
  refine ⟨⟨wordsWithDigits (List.range 16), wordsWithDigits_nodup (by decide) (by decide), rfl, fun w => ?_⟩,
    ⟨wordsWithDigits (List.range' 1 9), wordsWithDigits_nodup (by decide) (by decide), rfl, fun w => ?_⟩,
    fun s w e idle illegal => State.submitWord_of_illegal (State.busy_of_idle idle) illegal⟩
  · rw [mem_wordsWithDigits (by decide)]
    refine exists_congr fun i => and_iff_left_of_imp fun legal d hd => List.mem_range.mpr ?_
    exact Nat.lt_succ_of_le (Instr.wellFormed_iff.mp (encode_decode legal).1 d hd)
  · have valid : ∀ d, d ∈ List.range' 1 9 ↔ validDigits d = true := fun d => by
      rw [List.mem_range'_1, validDigits_iff]
      omega
    simp only [mem_wordsWithDigits (digits := List.range' 1 9) (by decide), submitWord_accepted_iff, valid]

/-- Settles O17: `decode` computes on each word the spec writes out. -/
theorem decodesTheWordsTheSpecWritesOut : Obligations.DecodesTheWordsTheSpecWritesOut := by
  unfold Obligations.DecodesTheWordsTheSpecWritesOut
  decide

end Sys2Proof.Proofs
end

section
/-! Completion always comes: no step faults, and a BUSY phase ends (60_exceptions.md R225, R230). -/

namespace Sys2Proof.Machine

@[simp] theorem completed_err (job : Job) (s : State) : (completed job s).err = s.err := by
  obtain ⟨-, -, -, err, -⟩ := completed_frame job s
  exact err

/-- In the invariant the engine's move of a running job completes it. -/
theorem State.Inv.engineTurn_eq {s : State} (inv : s.Inv) {job : Job} (busy : s.phase = .busy job) :
    engineTurn s = .next (completed job s) :=
  (engineTurn_busy busy).trans (complete_of_legal (inv.jobLegal job busy))

/-- A host's move faults only if its operation does, and no operation does. -/
theorem hostTurn_ne_fault (s : State) (f : Fault) : hostTurn s ≠ .fault f := by
  cases l : s.host with
  | nil => simp [hostTurn_nil l]
  | cons op rest => exact hostTurn_cons l ▸ hostOp_ne_fault op _ f

theorem State.Inv.never_faults {s : State} (inv : s.Inv) (f : Fault) : step s ≠ .fault f := by
  have taken : s.taken.Inv := inv.of_sameEngine rfl
  cases m : s.mover with
  | host => exact step_host m ▸ hostTurn_ne_fault _ f
  | engine =>
    rw [step_engine m]
    cases p : s.phase with
    | idle => simp [engineTurn_idle (s := s.taken) p]
    | busy job => simp [taken.engineTurn_eq p]

/-! ### Progress -/

/-- With a host that keeps to the window's rules the machine always has a next state. -/
theorem State.Inv.always_steps {s : State} (inv : s.Inv) (host : ∀ op ∈ s.host, op.admitted = true) :
    ∃ t, step s = .next t := by
  have taken : s.taken.Inv := inv.of_sameEngine rfl
  cases m : s.mover with
  | host =>
    rw [step_host m]
    cases l : s.host with
    | nil => exact ⟨_, hostTurn_nil (s := s.taken) l⟩
    | cons op rest =>
      rw [hostTurn_cons (s := s.taken) l]
      exact (hostOp_next_iff op _).mpr (host op (by simp [l]))
  | engine =>
    rw [step_engine m]
    cases p : s.phase with
    | idle => exact ⟨_, engineTurn_idle (s := s.taken) p⟩
    | busy job => exact ⟨_, taken.engineTurn_eq p⟩

/-- An accepted, rejected, dropped or stored write leaves the model's own lists. -/
theorem State.writeTo_lists {r : Reg} {v : Word} {s t : State} (h : s.writeTo r v = .next t) :
    t.host = s.host ∧ t.turns = s.turns := by
  rcases State.writeTo_outcomes h with ⟨-, -, rfl⟩ | ⟨-, -, e, rfl⟩ | ⟨-, -, i, -, -, rfl⟩ | ⟨-, -, rfl⟩ <;> simp

/-- A host operation uses up no turn, and the host keeps at most the operation itself, as a wait does. -/
theorem hostOp_lists {op : HostOp} {s t : State} (h : hostOp op s = .next t) :
    t.turns = s.turns ∧ (t.host = s.host ∨ t.host = op :: s.host) := by
  cases op with
  | read off =>
    simp only [hostOp, hostRead] at h
    split at h <;> cases h
    rw [State.readFrom_sameEngine]
    exact ⟨rfl, .inl rfl⟩
  | write off v =>
    simp only [hostOp, hostWrite] at h
    split at h
    · obtain ⟨host, turns⟩ := State.writeTo_lists h
      exact ⟨turns, .inl host⟩
    · cases h
  | otherWidth width off => cases h
  | reset => cases h; exact ⟨rfl, .inl rfl⟩
  | wait => simp only [hostOp] at h; split at h <;> cases h <;> simp
  | waitIrq => simp only [hostOp] at h; split at h <;> cases h <;> simp

/-- A step uses up one turn and gives the host no new operation. -/
theorem step_lists {s t : State} (h : step s = .next t) :
    t.turns = s.turns.tail ∧ ∀ op ∈ t.host, op ∈ s.host := by
  rcases step_outcomes h with ⟨-, -, -, rfl⟩ | ⟨-, job, -, rfl⟩ | ⟨-, op, rest, next_op, -, moved⟩
  · exact ⟨rfl, fun _ => id⟩
  · obtain ⟨-, -, -, -, host, turns, -⟩ := completed_frame job s.taken
    exact ⟨turns, fun _ => host ▸ id⟩
  · obtain ⟨turns, host | host⟩ := hostOp_lists moved
    · refine ⟨turns, fun _ m => ?_⟩
      rw [host] at m
      exact List.mem_of_mem_tail m
    · refine ⟨turns, fun _ m => ?_⟩
      rw [host] at m
      simpa [State.issued, next_op] using m

/-- With no turn prescribed a BUSY phase ends with the next step: by a pending reset, else by the completion (log 3). -/
theorem idle_of_step_no_turns {s t : State} (turns : s.turns = []) (busy : s.busy = true) (h : step s = .next t) :
    t.busy = false := by
  have mover : s.mover = nextAgent s := mover_default turns
  rcases step_outcomes h with ⟨-, idle, none_left, -⟩ | ⟨-, job, -, rfl⟩ | ⟨host, op, rest, next_op, -, moved⟩
  · cases m : s.mover with
    | engine => simp [State.busy_of_idle (idle m)] at busy
    | host => simp [mover, nextAgent, none_left m, busy] at m
  · exact State.busy_of_idle (completed_phase job _)
  · rw [mover, nextAgent, next_op] at host
    split at host
    · rename_i heq
      cases heq
      cases moved
      rfl
    · simp [busy] at host

/-- By induction on the prescribed turns: each step uses one up, and with none left the phase ends. -/
theorem State.Inv.busy_ends (turns : List Agent) : ∀ {s : State}, s.turns = turns → s.Inv →
    (∀ op ∈ s.host, op.admitted = true) → s.busy = true →
    ∃ k, k ≤ turns.length + 1 ∧ ∃ t : State, Sys2Proof.core.run k s = .next t ∧ t.busy = false := by
  induction turns with
  | nil =>
    intro s none_left inv host busy
    obtain ⟨t, ht⟩ := inv.always_steps host
    exact ⟨1, by simp, t, core_run_succ ht, idle_of_step_no_turns none_left busy ht⟩
  | cons a rest ih =>
    intro s prescribed inv host busy
    obtain ⟨t, ht⟩ := inv.always_steps host
    obtain ⟨used, kept⟩ := step_lists ht
    cases still : t.busy with
    | false => exact ⟨1, by simp, t, core_run_succ ht, still⟩
    | true =>
      obtain ⟨k, bound, u, run, ended⟩ :=
        ih (by simp [used, prescribed]) (inv.after_step ht) (fun op m => host op (kept op m)) still
      exact ⟨k + 1, by simpa using bound, u, (core_run_succ ht).trans run, ended⟩

end Sys2Proof.Machine

namespace Sys2Proof.Proofs

open Sys2Proof Sys2Proof.Machine

/-- Settles O6: the running job is legal, so its completion is defined, and it leaves the ERR of acceptance, which is
0. -/
theorem acceptedCommandsAlwaysComplete : Obligations.AcceptedCommandsAlwaysComplete := fun _ inv =>
  ⟨inv.never_faults, fun job busy => ⟨_, inv.engineTurn_eq busy, completed_phase job _, completed_done job _,
    (completed_err job _).trans (inv.busyNoError (State.busy_of_busy busy))⟩⟩

/-- Settles O7, by induction on the prescribed turns (`State.Inv.busy_ends`). -/
theorem busyEndsWithinThePrescribedTurns : Obligations.BusyEndsWithinThePrescribedTurns :=
  fun s => State.Inv.busy_ends s.turns rfl

/-- Settles O56: the operations with a next state are those of `HostOp.admitted`. -/
theorem onlyAlignedWordAccessesHaveAStep : Obligations.OnlyAlignedWordAccessesHaveAStep := by
  intro s op
  rw [hostOp_next_iff]
  cases op <;> simp [HostOp.admitted, aligned]

end Sys2Proof.Proofs
end

section
/-! The phase, DONE, ERR, CTRL and CAP after a step (10_state.md R21, R24, R27, R29). -/

namespace Sys2Proof.Machine

@[simp] theorem completed_keyMax (job : Job) (s : State) : (completed job s).keyMax = s.keyMax := by
  obtain ⟨keyMax, -⟩ := completed_frame job s
  exact keyMax

@[simp] theorem completed_ie (job : Job) (s : State) : (completed job s).ie = s.ie := by
  obtain ⟨-, ie, -⟩ := completed_frame job s
  exact ie

/-! ### The engine's fields after an operation that is no write -/

theorem State.sameEngine.flags {s t : State} (h : s.sameEngine t) :
    t.phase = s.phase ∧ t.done = s.done ∧ t.err = s.err ∧ t.ie = s.ie ∧ t.keyMax = s.keyMax := by
  unfold State.sameEngine at h
  rw [h]
  exact ⟨rfl, rfl, rfl, rfl, rfl⟩

/-- No write of a register changes the phase while BUSY. -/
theorem State.writeTo_phase_of_busy {r : Reg} {v : Word} {s t : State} (h : s.writeTo r v = .next t)
    (busy : s.busy = true) : t.phase = s.phase := by
  rcases State.writeTo_outcomes h with ⟨-, -, rfl⟩ | ⟨-, idle, -⟩ | ⟨-, idle, -⟩ | ⟨-, -, rfl⟩
  · rfl
  · simp [busy] at idle
  · simp [busy] at idle
  · simp

/-- While IDLE only an accepted command makes a write of a register begin a BUSY phase. -/
theorem State.writeTo_phase_of_idle {r : Reg} {v : Word} {s t : State} (h : s.writeTo r v = .next t)
    (idle : s.phase = .idle) {job : Job} (busy : t.phase = .busy job) :
    r = .cmd ∧ ∃ i, decode v = .ok i ∧ job = snapshot i s := by
  rcases State.writeTo_outcomes h with ⟨-, -, rfl⟩ | ⟨-, -, e, rfl⟩ | ⟨cmd, -, i, legal, -, rfl⟩ | ⟨-, -, rfl⟩
  · simp [idle] at busy
  · simp [idle] at busy
  · cases busy
    exact ⟨cmd, i, legal, rfl⟩
  · simp [idle] at busy

/-- DONE after a write of a register (10_state.md R27). -/
theorem State.writeTo_done {r : Reg} {v : Word} {s t : State} (h : s.writeTo r v = .next t) :
    t.done =
      if r = .cmd then (if s.busy then s.done else !t.busy)
      else if r = .status then s.done && !v.getLsbD 1
      else s.done := by
  rcases State.writeTo_outcomes h with ⟨busy, dropped, rfl⟩ | ⟨rfl, idle, e, rfl⟩ | ⟨rfl, idle, i, -, -, rfl⟩ |
    ⟨ne, -, rfl⟩
  · have ne : r ≠ .status := fun status => by simp [status, Reg.droppedWhileBusy] at dropped
    simp [busy, ne]
  · simp [idle]
  · simp [idle]
  · simp [ne, State.writeReg_done]

/-- ERR after a write of a register: a command written while IDLE sets it, nothing else does (10_state.md R29). -/
theorem State.writeTo_err {r : Reg} {v : Word} {s t : State} (h : s.writeTo r v = .next t) :
    (r = .cmd ∧ s.busy = false ∧ (t.busy = true ∧ t.err = none ∨ t.busy = false ∧ t.err ≠ none)) ∨
    ((r = .cmd → s.busy = true) ∧ t.err = s.err) := by
  rcases State.writeTo_outcomes h with ⟨busy, -, rfl⟩ | ⟨cmd, idle, e, rfl⟩ | ⟨cmd, idle, i, -, -, rfl⟩ | ⟨ne, -, rfl⟩
  · exact .inr ⟨fun _ => busy, rfl⟩
  · exact .inl ⟨cmd, idle, .inr ⟨idle, by simp⟩⟩
  · exact .inl ⟨cmd, idle, .inl ⟨rfl, rfl⟩⟩
  · exact .inr ⟨fun cmd => absurd cmd ne, by simp⟩

/-- IE after a write of a register: CTRL's alone changes it; and no write changes the capacity. -/
theorem State.writeTo_ie {r : Reg} {v : Word} {s t : State} (h : s.writeTo r v = .next t) :
    t.keyMax = s.keyMax ∧ (t.ie = s.ie ∨ r = .ctrl ∧ t.ie = v.getLsbD 0) := by
  rcases State.writeTo_outcomes h with ⟨-, -, rfl⟩ | ⟨-, -, e, rfl⟩ | ⟨-, -, i, -, -, rfl⟩ | ⟨-, -, rfl⟩
  · exact ⟨rfl, .inl rfl⟩
  · exact ⟨rfl, .inl rfl⟩
  · exact ⟨rfl, .inl rfl⟩
  · refine ⟨by simp, ?_⟩
    rw [State.writeReg_ie]
    split
    · exact .inr ⟨‹_›, rfl⟩
    · exact .inl rfl

/-- The code of an error is at most 4 (60_exceptions.md R220). -/
theorem errField_le_four (e : Option CmdError) : (errField e).toNat ≤ 4 := by
  rcases e with - | - | - | - | - <;> decide

/-- A snapshot sees no field of the model's own. -/
theorem snapshot_issued (i : Instr) (s : State) : snapshot i { s.issued with response := none } = snapshot i s :=
  snapshot_congr i rfl rfl rfl rfl rfl rfl rfl

/-! ### DONE after a host operation -/

/-- DONE after a host operation on `s` that leaves BUSY as `busy`. -/
def State.doneAfter (s : State) (busy : Bool) : HostOp → Bool
  | .write off v =>
    if regAt s.keyMax off = .cmd then (if s.busy then s.done else !busy)
    else if regAt s.keyMax off = .status then s.done && !v.getLsbD 1
    else s.done
  | .reset => false
  | _ => s.done

theorem hostOp_done {op : HostOp} {s t : State} (h : hostOp op s = .next t) : t.done = s.doneAfter t.busy op := by
  rcases hostOp_outcomes h with ⟨noWrite, noReset, same⟩ | ⟨rfl, rfl⟩ | ⟨off, v, rfl, written⟩
  · obtain ⟨-, done, -⟩ := same.flags
    cases op with
    | write off v => exact absurd rfl (noWrite off v)
    | reset => exact absurd rfl noReset
    | _ => exact done
  · rfl
  · exact (State.writeTo_done written :)

end Sys2Proof.Machine

namespace Sys2Proof.Proofs

open Sys2Proof Sys2Proof.Machine

/-- Settles O8: of the outcomes of a step, only an accepted command begins a BUSY phase and only a completion or a reset
ends one. -/
theorem phaseChangesOnlyByAcceptanceCompletionReset : Obligations.PhaseChangesOnlyByAcceptanceCompletionReset := by
  intro s t h
  rcases step_outcomes h with ⟨-, -, -, rfl⟩ | ⟨engine, job, running, rfl⟩ | ⟨-, op, rest, -, next_op, moved⟩
  · exact ⟨by simp_all, by simp_all, by simp_all⟩
  · exact ⟨by simp_all, fun _ _ _ => .inl engine, by simp⟩
  · rcases hostOp_outcomes moved with ⟨-, -, same⟩ | ⟨rfl, rfl⟩ | ⟨off, w, rfl, written⟩
    · obtain ⟨phase, -⟩ := same.flags
      exact ⟨by simp_all, by simp_all, by simp_all⟩
    · exact ⟨by simp, fun _ _ _ => .inr next_op, by simp⟩
    · have kept (busy : s.busy = true) : t.phase = s.phase := (State.writeTo_phase_of_busy written busy :)
      refine ⟨fun idle job accepted => ?_, fun job busy idle => ?_, fun job job' busy busy' => ?_⟩
      · obtain ⟨cmd, i, legal, snap⟩ := State.writeTo_phase_of_idle written idle accepted
        rw [eq_cmdOffset_of_regAt cmd] at next_op
        exact ⟨w, i, next_op, legal, snap.trans (snapshot_issued i s)⟩
      · exact nomatch idle.symm.trans ((kept (State.busy_of_busy busy)).trans busy)
      · rw [kept (State.busy_of_busy busy), busy] at busy'
        cases busy'
        rfl

/-- Settles O9: a completion sets DONE, `hostOp_done` says what each host operation does, and the invariant of the next
state excludes DONE while BUSY. -/
theorem doneFollowsItsEvents : Obligations.DoneFollowsItsEvents := by
  intro s t h
  refine ⟨?_, rfl, fun inv ⟨done, busy⟩ => by simp [(inv.after_step h).doneNotBusy busy] at done⟩
  rcases step_outcomes h with ⟨-, idle, none_left, rfl⟩ | ⟨engine, job, running, rfl⟩ | ⟨host, op, rest, l, -, moved⟩
  · cases m : s.mover with
    | engine => simp [State.busy_of_idle (idle m)]
    | host => simp [none_left m]
  · simp [engine, State.busy_of_busy running]
  · rw [hostOp_done moved, host, l]
    cases op <;> rfl

/-- Settles O11: a step writes ERR only by a command written while IDLE (`State.writeTo_err`) and by reset. -/
theorem errFollowsTheLastCommandWrittenWhileIdle : Obligations.ErrFollowsTheLastCommandWrittenWhileIdle := by
  intro s t h
  rcases step_outcomes h with ⟨no_op, -, -, rfl⟩ | ⟨engine, job, -, rfl⟩ | ⟨-, op, rest, -, next_op, moved⟩
  · simp [no_op, errField_le_four]
  · simp [State.hostNext_of_engine engine, errField_le_four]
  · rw [next_op]
    rcases hostOp_outcomes moved with ⟨noWrite, noReset, same⟩ | ⟨rfl, rfl⟩ | ⟨off, w, rfl, written⟩
    · obtain ⟨-, -, err, -⟩ := same.flags
      refine ⟨fun off w e => absurd (Option.some.inj e) (noWrite off w), by simp [noReset], fun _ _ => err,
        errField_le_four _⟩
    · simp [errField_le_four]
    · rcases State.writeTo_err written with ⟨cmd, idle, outcome⟩ | ⟨busy, err⟩
      · refine ⟨fun off' w' e _ _ => outcome, by simp, fun _ busy => ?_, errField_le_four _⟩
        exact nomatch idle.symm.trans (busy off w rfl cmd)
      · refine ⟨fun off' w' e cmd idle => ?_, by simp, fun _ _ => err, errField_le_four _⟩
        cases e
        exact nomatch idle.symm.trans (busy cmd)

/-- Settles O12: of the outcomes of a step, only a stored write of CTRL and a reset write IE, and none writes the
capacity. -/
theorem ctrlAndCapChangeOnlyByTheirOwnRules : Obligations.CtrlAndCapChangeOnlyByTheirOwnRules := by
  intro s t h
  rcases step_outcomes h with ⟨-, -, -, rfl⟩ | ⟨-, job, -, rfl⟩ | ⟨-, op, rest, -, next_op, moved⟩
  · simp
  · simp
  · rcases hostOp_outcomes moved with ⟨-, -, same⟩ | ⟨rfl, rfl⟩ | ⟨off, v, rfl, written⟩
    · obtain ⟨-, -, -, ie, keyMax⟩ := same.flags
      exact ⟨keyMax, fun changed => absurd ie changed⟩
    · exact ⟨rfl, fun _ => .inl next_op⟩
    · obtain ⟨keyMax, kept | ⟨ctrl, ie⟩⟩ := State.writeTo_ie written
      · exact ⟨keyMax, fun changed => absurd kept changed⟩
      · exact ⟨keyMax, fun _ => .inr ⟨off, v, next_op, ctrl, ie⟩⟩

end Sys2Proof.Proofs
end

section
/-! Reset, the order of the agents, and STATUS after a write of CMD (60_exceptions.md R239,
70_reset_and_hazards.md R260, R261, R270). -/

namespace Sys2Proof.Machine

/-- Every register at its reset value (10_state.md R39). -/
theorem State.readReg_hardReset (r : Reg) (s : State) :
    s.hardReset.readReg r =
      match r with
      | .id => 0x484F5450
      | .cap => s.capWord
      | .stepLo => 0x0000001E
      | _ => 0 := by
  cases r with
  | status => exact s.statusWord_hardReset
  | counterHi | timeHi => show hiHalf 0 = 0; decide
  | stepHi => show hiHalf 30 = 0; decide
  | _ => rfl

/-- After reset two engines of one capacity differ in the model's own fields alone. -/
theorem State.hardReset_sameEngine {s t : State} (capacity : s.keyMax = t.keyMax) :
    s.hardReset.sameEngine t.hardReset := by
  simp only [State.sameEngine, State.hardReset, capacity]

/-- A step whose next operation is at the head of the host's list performs it. -/
theorem step_op {s : State} {op : HostOp} {rest : List HostOp} (mover : s.mover = .host) (l : s.host = op :: rest) :
    step s = hostOp op { s with turns := s.turns.tail, host := rest } :=
  (step_host mover).trans (hostTurn_cons l)

/-! ### STATUS (10_state.md R25) -/

/-- The fields BUSY, DONE and ERR of STATUS, without OVR. -/
theorem State.statusWord_and_flags (s : State) :
    s.statusWord &&& 0x000000F3 =
      (0 : BitVec 24) ++ errField s.err ++ (0 : BitVec 2) ++ BitVec.ofBool s.done ++ BitVec.ofBool s.busy := by
  unfold State.statusWord
  cases s.busy <;> cases s.done <;> cases s.ovr <;>
    (cases s.err with
    | none => rfl
    | some e => cases e <;> rfl)

theorem State.statusWord_accept (job : Job) (s : State) : (s.accept job).statusWord &&& 0x000000F3 = 0x00000001 := by
  rw [State.statusWord_and_flags, State.accept_err, State.accept_done, State.busy_accept]
  rfl

/-- A completion that follows an acceptance shows DONE alone. -/
theorem completed_statusWord {job : Job} {s : State} (noError : s.err = none) :
    (completed job s).statusWord &&& 0x000000F3 = 0x00000002 := by
  rw [State.statusWord_and_flags, completed_err, completed_done, State.busy_of_idle (completed_phase job s), noError]
  rfl

/-- A rejection while IDLE shows DONE and an error. -/
theorem State.statusWord_reject {s : State} (e : CmdError) (idle : s.busy = false) :
    (s.reject e).statusWord &&& 0x00000003 = 0x00000002 ∧ (s.reject e).statusWord &&& 0x000000F0 ≠ 0 := by
  unfold State.statusWord
  simp only [State.reject_err, State.reject_ovr, State.reject_done, State.busy_reject, idle]
  cases s.ovr <;> cases e <;> decide

end Sys2Proof.Machine

namespace Sys2Proof.Proofs

open Sys2Proof Sys2Proof.Machine

/-- Settles O1: the state after reset is `hardReset`, read register by register. -/
theorem resetSetsEveryRegister : Obligations.ResetSetsEveryRegister := fun s =>
  ⟨s.hardReset, rfl, rfl, rfl, s.statusWord_hardReset, fun _ => rfl, fun r => State.readReg_hardReset r s⟩

/-- Settles O2: `hardReset` depends on the capacity and the model's own fields alone. -/
theorem nothingSurvivesReset : Obligations.NothingSurvivesReset := by
  rintro s t s' t' capacity ⟨⟩ ⟨⟩
  exact ⟨State.hardReset_sameEngine capacity, fun _ => rfl⟩

/-- Settles O3: the default order gives a pending reset to the host (`nextAgent`). -/
theorem pendingResetGoesFirst : Obligations.PendingResetGoesFirst := by
  intro s rest turns l
  have mover : s.mover = .host := by rw [mover_default turns, nextAgent, l]
  exact ⟨_, step_op mover l, rfl, rfl, rfl, rfl, rfl⟩

/-- Settles O18: the mover's turn on `taken`, and each host operation by its own clause of `hostOp`. -/
theorem stepRunsTheDecodedCommand : Obligations.StepRunsTheDecodedCommand := by
  refine ⟨fun s w i rest mover l legal => ?_, fun s w e rest mover l illegal => ?_, fun s op rest => step_op,
    fun _ _ => rfl, fun _ _ _ => rfl, fun s => ?_, fun s => ?_,
    fun s mover l => (step_host mover).trans (hostTurn_nil l), fun s => step_engine, fun s => engineTurn_idle,
    fun s a rest => mover_of_turn⟩
  · refine (step_op mover l).trans ((hostWrite_cmdOffset w _).trans ?_)
    rw [State.submitWord_of_legal legal, exec_eq_submit]
  · refine (step_op mover l).trans ((hostWrite_cmdOffset w _).trans ?_)
    cases busy : s.busy with
    | true => exact State.submitWord_of_busy busy
    | false => exact State.submitWord_of_illegal busy illegal
  · cases busy : s.busy <;> simp [hostOp, busy]
  · cases irq : s.irq <;> simp [hostOp, irq]

/-- Settles O21: of the outcomes of a write of CMD, an IDLE engine knows acceptance and rejection. -/
theorem statusShowsTheOutcomeAtOnce : Obligations.StatusShowsTheOutcomeAtOnce := by
  intro s t w idle written
  rcases hostWrite_cmdOffset_cases written with ⟨busy, -⟩ | ⟨notBusy, e, rfl⟩ | ⟨-, job, rfl⟩
  · simp [State.busy_of_idle idle] at busy
  · exact .inr (State.statusWord_reject e notBusy)
  · refine .inl ⟨State.statusWord_accept job _, fun u completes => ?_⟩
    rw [engineTurn_busy rfl] at completes
    rw [complete_cases completes]
    exact completed_statusWord rfl

/-- Settles O28: CLEAR's completion and reset write the same values to every register but CTRL and STATUS. -/
theorem afterClearRegistersReadAsAfterReset : Obligations.AfterClearRegistersReadAsAfterReset := by
  rintro s t u running completes ⟨⟩
  rw [engineTurn_busy running] at completes
  rw [complete_cases completes]
  refine ⟨fun r noCtrl noStatus => ?_, rfl, rfl, rfl, rfl⟩
  cases r with
  | ctrl => exact absurd rfl noCtrl
  | status => exact absurd rfl noStatus
  | _ => rfl

end Sys2Proof.Proofs
end

section
/-! The frames of the six commands and the bound of CODE (10_state.md R38, R40, 60_exceptions.md R222 to R229). -/

namespace Sys2Proof.Machine

/-! ### Submission -/

/-- Rejection, acceptance and a dropped write show in STATUS alone. -/
theorem State.readReg_reject {r : Reg} (ne : r ≠ .status) (e : CmdError) (s : State) :
    (s.reject e).readReg r = s.readReg r := by
  cases r with
  | status => exact absurd rfl ne
  | _ => rfl

theorem State.readReg_accept {r : Reg} (ne : r ≠ .status) (job : Job) (s : State) :
    (s.accept job).readReg r = s.readReg r := by
  cases r with
  | status => exact absurd rfl ne
  | _ => rfl

theorem State.readReg_dropWrite {r : Reg} (ne : r ≠ .status) (s : State) : s.dropWrite.readReg r = s.readReg r := by
  cases r with
  | status => exact absurd rfl ne
  | _ => rfl

/-! ### Completion -/

/-- A completion writes its own registers and STATUS, no other (10_state.md R40). -/
theorem readReg_completed {job : Job} {r : Reg} (other : r ∉ job.writtenRegs) (ne : r ≠ .status) (s : State) :
    (completed job s).readReg r = s.readReg r := by
  cases job <;> cases r <;> simp [Job.writtenRegs, digestRegs] at other ne <;> rfl

/-- A completion with a digit count writes a code below 10^d; it has a next state only if d is valid
(41_truncate_reduce.md R167). -/
theorem complete_code_lt {job : Job} {d : Nat} {s t : State} (digits : job.command.digitCount = some d)
    (h : complete job s = .next t) : d ≤ 9 ∧ t.code.toNat < 10 ^ d := by
  have valid : validDigits d = true := by
    by_contra invalid
    cases job <;> cases digits <;> simp [complete, completeHotp, completeTotp, completeReduce, invalid] at h
  refine ⟨(validDigits_iff.mp valid).2, ?_⟩
  rw [complete_cases h]
  cases job <;> cases digits <;> exact reduceCode_lt _ _

/-- Below 10^9, so below 2^30, bits 31 and 30 are 0 (10_state.md R38). -/
theorem getLsbD_eq_false_of_lt {w : Word} {d i : Nat} (small : d ≤ 9) (bound : w.toNat < 10 ^ d) (high : 30 ≤ i) :
    w.getLsbD i = false := by
  refine Nat.testBit_lt_two_pow (calc
    w.toNat < 10 ^ d := bound
    _ ≤ 10 ^ 9 := Nat.pow_le_pow_right (by omega) small
    _ ≤ 2 ^ 30 := by omega
    _ ≤ 2 ^ i := Nat.pow_le_pow_right (by omega) high)

end Sys2Proof.Machine

namespace Sys2Proof.Proofs

open Sys2Proof Sys2Proof.Machine

/-- Settles O29: a submission drops, rejects or accepts, whichever the command. -/
theorem submissionLeavesEverythingButStatus : Obligations.SubmissionLeavesEverythingButStatus := by
  intro i s t h
  rw [exec_eq_submit] at h
  rcases State.submit_cases h with ⟨busy, rfl⟩ | ⟨idle, e, -, rfl⟩ | ⟨idle, -, rfl⟩
  · exact ⟨fun r ne => State.readReg_dropWrite ne s, fun _ => rfl, by simp [busy], fun _ => ⟨rfl, rfl, rfl, rfl⟩⟩
  · exact ⟨fun r ne => State.readReg_reject ne e s, fun _ => rfl, fun _ => rfl, by simp [idle]⟩
  · exact ⟨fun r ne => State.readReg_accept ne _ s, fun _ => rfl, fun _ => rfl, by simp [idle]⟩

/-- Settles O30: the lists are those of `Job.writtenRegs`, in another order. -/
theorem completionWritesOnlyItsOwnRegisters : Obligations.CompletionWritesOnlyItsOwnRegisters := by
  intro s t job busy completes digest written
  rw [engineTurn_busy busy] at completes
  rw [complete_cases completes]
  have lists : job.writtenRegs ⊆ written := by
    cases job <;> simp [written, digest, Job.writtenRegs, digestRegs]
  refine ⟨fun r other ne => readReg_completed (fun m => other (lists m)) ne s, fun notClear a => ?_, completed_ie job s,
    completed_ovr job s, completed_err job s⟩
  rw [completed_key, if_neg notClear]

/-- Settles O31: a code written is a remainder by 10^d, and CODE takes no host write in either phase. -/
theorem codeStaysBelowTenToTheDigits : Obligations.CodeStaysBelowTenToTheDigits := by
  refine ⟨fun s t job d busy digits completes => ?_,
    fun s v => hostWrite_of_not_dropped rfl (regAt_of_lookup (r := .code) (by decide)) rfl⟩
  rw [engineTurn_busy busy] at completes
  obtain ⟨small, bound⟩ := complete_code_lt digits completes
  exact ⟨bound, getLsbD_eq_false_of_lt small bound (by omega), getLsbD_eq_false_of_lt small bound (by omega)⟩

end Sys2Proof.Proofs
end

section
/-! What the commands compute depends on their operands alone (40_hmac_sha1.md R135, 42_otp_commands.md R194, R198,
R202). -/

namespace Sys2Proof.Machine

/-! ### A command that ran -/

/-- A command that an IDLE engine accepts and completes leaves `completed` of its snapshot. -/
theorem completed_of_exec_of_engineTurn {i : Instr} {s a t : State} (idle : s.phase = .idle)
    (submitted : exec i s = .next a) (accepted : a.busy = true) (completes : engineTurn a = .next t) :
    firstError (commandChecks i s) = none ∧ t = completed (snapshot i s) (s.accept (snapshot i s)) := by
  obtain ⟨ok, rfl⟩ := exec_accepted idle submitted accepted
  rw [engineTurn_busy rfl] at completes
  exact ⟨ok, complete_cases completes⟩

/-- With its checks passed a command has one end. -/
theorem completed_of_checks_pass {i : Instr} {s t : State} (idle : s.phase = .idle)
    (ok : firstError (commandChecks i s) = none) (ran : ∃ a, exec i s = .next a ∧ engineTurn a = .next t) :
    t = completed (snapshot i s) (s.accept (snapshot i s)) := by
  obtain ⟨a, submitted, completes⟩ := ran
  cases submitted.symm.trans (exec_then_engineTurn idle ok).1
  exact (completed_of_exec_of_engineTurn idle submitted rfl completes).2

/-! ### Operands and results -/

theorem State.keyBytes_congr {s t : State} (keyLen : s.keyLen = t.keyLen)
    (bytes : ∀ j, j < s.keyLen.toNat → s.key.read j = t.key.read j) : s.keyBytes = t.keyBytes := by
  rw [State.keyBytes, State.keyBytes, ← keyLen]
  exact List.map_congr_left fun j m => bytes j (List.mem_range.mp m)

/-- The checks of a command see KEY_LEN against the capacity, and STEP for TOTP. -/
theorem commandChecks_congr {i : Instr} {s t : State} (capacity : s.keyMax = t.keyMax) (keyLen : s.keyLen = t.keyLen)
    (step : i.usesStep = true → s.stepSeconds = t.stepSeconds) : commandChecks i s = commandChecks i t := by
  have keyLenError : s.keyLenError = t.keyLenError := by simp only [State.keyLenError, capacity, keyLen]
  cases i <;> simp_all [commandChecks, State.stepError, Instr.usesStep]

/-- A command with a key latches the key, and COUNTER or else TIME and STEP (60_exceptions.md R228). -/
theorem snapshot_congr_of_usesKey {i : Instr} {s t : State} (uses : i.usesKey = true)
    (key : s.keyBytes = t.keyBytes) (counter : i.usesStep = false → s.counter = t.counter)
    (step : i.usesStep = true → s.time = t.time ∧ s.stepSeconds = t.stepSeconds) : snapshot i s = snapshot i t := by
  cases i with
  | hotp d => simp only [snapshot, snapHotp, key, counter rfl]
  | totp d => simp only [snapshot, snapTotp, key, (step rfl).1, (step rfl).2]
  | hmac => simp only [snapshot, snapHmac, key, counter rfl]
  | trunc => cases uses
  | reduce d => cases uses
  | clear => cases uses

/-- The results of a completion are functions of the job: DIGEST, and TRUNC and CODE but for HMAC. -/
theorem completed_results {job : Job} (uses : job.command.usesKey = true) (s t : State) :
    (completed job s).digest = (completed job t).digest ∧
    (job.command ≠ .hmac →
      (completed job s).trunc = (completed job t).trunc ∧ (completed job s).code = (completed job t).code) := by
  cases job with
  | hotp d key counter => exact ⟨rfl, fun _ => ⟨rfl, rfl⟩⟩
  | totp d key time x => exact ⟨rfl, fun _ => ⟨rfl, rfl⟩⟩
  | hmac key counter => exact ⟨rfl, fun ne => absurd rfl ne⟩
  | trunc digest => cases uses
  | reduce d p => cases uses
  | clear => cases uses

/-- COUNTER after a command with a key: TOTP derives it, the others keep it (42_otp_commands.md R198). -/
theorem completed_counter {job : Job} (uses : job.command.usesKey = true) {s t : State}
    (kept : job.command.usesStep = false → s.counter = t.counter) :
    (completed job s).counter = (completed job t).counter := by
  cases job with
  | hotp d key counter => exact kept rfl
  | totp d key time x => rfl
  | hmac key counter => exact kept rfl
  | trunc digest => cases uses
  | reduce d p => cases uses
  | clear => cases uses

/-- Every second of the window of index `i` has the step number `i` (42_otp_commands.md R202). -/
theorem timeStep_of_window {t : Dword} {i : Nat} (atLeast : 30 * i ≤ t.toNat) (atMost : t.toNat ≤ 30 * i + 29) :
    (timeStep t 30).toNat = i := by
  have quotient : (timeStep t 30).toNat = t.toNat / 30 := timeStep_toNat t 30
  omega

end Sys2Proof.Machine

namespace Sys2Proof.Proofs

open Sys2Proof Sys2Proof.Machine

/-- Settles O32: the two engines pass the same checks and latch the same job, of which the results are functions. -/
theorem resultsDependOnTheSnapshotAlone : Obligations.ResultsDependOnTheSnapshotAlone := by
  intro i s t a b s' t' uses idleS idleT capacity keyLen bytes counter step execS execT accepted endS endT
  obtain ⟨ok, rfl⟩ := completed_of_exec_of_engineTurn idleS execS accepted endS
  rw [commandChecks_congr capacity keyLen fun u => (step u).2] at ok
  rw [completed_of_checks_pass idleT ok ⟨b, execT, endT⟩,
    snapshot_congr_of_usesKey uses (State.keyBytes_congr keyLen bytes) counter step]
  have usesJob : (snapshot i t).command.usesKey = true := by simpa using uses
  obtain ⟨digest, codes⟩ := completed_results usesJob (s.accept (snapshot i t)) (t.accept (snapshot i t))
  exact ⟨digest, by simpa using codes, completed_counter usesJob (by simpa using counter)⟩

/-- Settles O33: TOTP leaves the derived counter in COUNTER and the key as it was, so HOTP computes the same code; and
TOTP latches no COUNTER. -/
theorem hotpAfterTotpGivesTheSameCode : Obligations.HotpAfterTotpGivesTheSameCode := by
  intro s t d idle fits atLeast atMost nonzero ran
  have ok : firstError (commandChecks (.totp d) s) = none :=
    totpChecks_pass_iff.mpr ⟨fits, ⟨atLeast, atMost⟩, nonzero⟩
  obtain rfl := completed_of_checks_pass idle ok ran
  refine ⟨timeStep_toNat s.time s.stepSeconds, ?_, fun c => ?_⟩
  · have okAfter : firstError (commandChecks (.hotp d)
        (completed (snapshot (.totp d) s) (s.accept (snapshot (.totp d) s)))) = none :=
      hotpChecks_pass_iff.mpr ⟨fits, atLeast, atMost⟩
    obtain ⟨accepted, completes⟩ := exec_then_engineTurn (completed_phase _ _) okAfter
    exact ⟨_, _, accepted, completes, rfl⟩
  · obtain ⟨accepted, completes⟩ := exec_then_engineTurn (i := .totp d) (s := { s with counter := c }) idle ok
    exact ⟨_, _, accepted, completes, rfl, rfl⟩

/-- Settles O34: both commands compute HOTP_F of one key at one counter, for TOTP the step number of TIME. -/
theorem totpInWindowEqualsHotpAtItsIndex : Obligations.TotpInWindowEqualsHotpAtItsIndex := by
  intro s t s' t' d i idleS idleT keyLen key fitsS fitsT atLeast atMost step from_i to_i counter ranS ranT
  obtain rfl := completed_of_checks_pass idleS
    (totpChecks_pass_iff.mpr ⟨fitsS, ⟨atLeast, atMost⟩, by rw [step]; decide⟩) ranS
  obtain rfl := completed_of_checks_pass idleT (hotpChecks_pass_iff.mpr ⟨fitsT, atLeast, atMost⟩) ranT
  have window : (timeStep s.time s.stepSeconds).toNat = i := by
    rw [step]
    exact timeStep_of_window from_i to_i
  have sameCounter : timeStep s.time s.stepSeconds = t.counter := BitVec.eq_of_toNat_eq (window.trans counter.symm)
  have sameKey : s.keyBytes = t.keyBytes := State.keyBytes_congr keyLen fun _ _ => by rw [key]
  simp [snapshot, snapTotp, snapHotp, completed, sameCounter, sameKey, counter]

end Sys2Proof.Proofs
end

section
/-! Byte strings of the datapath: the key's padding, the truncation window, the digest words, the time step
(10_state.md R36, 40_hmac_sha1.md R136, 41_truncate_reduce.md R161 to R163, 42_otp_commands.md R197, R201). -/

namespace Sys2Proof.Machine

/-! ### The padded key -/

/-- A key of at most 64 bytes is padded with zeros anyway. -/
theorem paddedKey_append_zeros {k : List Byte} {n : Nat} (fits : k.length + n ≤ 64) :
    paddedKey (k ++ List.replicate n 0x00) = paddedKey k := by
  have rest : 64 - k.length = n + (64 - (k.length + n)) := by omega
  rw [paddedKey, paddedKey, if_pos (by simpa using fits), if_pos (by omega), rest]
  simp [zeros, List.append_assoc, List.replicate_append_replicate]

/-! ### Four bytes of a string -/

theorem take_drop_four {hs : List Byte} {o : Nat} (inside : o + 3 < hs.length) :
    (hs.drop o).take 4 = [byteAt hs o, byteAt hs (o + 1), byteAt hs (o + 2), byteAt hs (o + 3)] := by
  have byte : ∀ (i : Nat) (h : i < hs.length), hs[i] = byteAt hs i := fun i h => by simp [byteAt, h]
  rw [List.drop_eq_getElem_cons (by omega), List.drop_eq_getElem_cons (by omega),
    List.drop_eq_getElem_cons (by omega), List.drop_eq_getElem_cons inside]
  simp only [byte, List.take_succ_cons, List.take_zero]

/-- Each word of a string serialises back to its four bytes (10_state.md R36). -/
theorem be_wordAt {hs : List Byte} {i : Nat} (inside : 4 * i + 3 < hs.length) :
    be 4 (wordAt hs i).toNat = (hs.drop (4 * i)).take 4 := by
  rw [wordAt, take_drop_four inside, be_beInv_four]

theorem Digest.bytes_ofBytes {hs : List Byte} (length : hs.length = 20) : (Digest.ofBytes hs).bytes = hs := by
  have last : (hs.drop 16).take 4 = hs.drop 16 := List.take_of_length_le (by simp [length])
  have glue : ∀ n, (hs.drop n).take 4 ++ hs.drop (n + 4) = hs.drop n := fun n => by
    rw [← List.drop_drop, List.take_append_drop]
  simp only [Digest.bytes, Digest.ofBytes]
  rw [be_wordAt (by omega), be_wordAt (by omega), be_wordAt (by omega), be_wordAt (by omega), be_wordAt (by omega)]
  simp only [List.append_assoc]
  rw [last, glue 12, glue 8, glue 4, glue 0, List.drop_zero]

/-! ### Dynamic truncation -/

theorem truncOffset_eq (hs : List Byte) : truncOffset hs = (byteAt hs 19).toNat % 16 := by
  rw [truncOffset, BitVec.toNat_and]
  exact Nat.and_two_pow_sub_one_eq_mod _ 4

/-- A term of R161 with the whole byte. -/
theorem windowByte_toNat (hs : List Byte) (i : Nat) :
    (windowByte hs i 0xFF).toNat = (byteAt hs (truncOffset hs + i)).toNat := by
  have whole : byteAt hs (truncOffset hs + i) &&& 0xFF = byteAt hs (truncOffset hs + i) := BitVec.and_allOnes
  rw [windowByte, whole, BitVec.toNat_setWidth_of_le (by omega)]

/-- The first term of R161, without the byte's top bit. -/
theorem windowByte_masked_toNat (hs : List Byte) (i : Nat) :
    (windowByte hs i 0x7F).toNat = (byteAt hs (truncOffset hs + i)).toNat % 128 := by
  rw [windowByte, BitVec.toNat_setWidth_of_le (by omega), BitVec.toNat_and]
  exact Nat.and_two_pow_sub_one_eq_mod _ 7

/-- An OR of parts that do not overlap is their sum. -/
theorem toNat_shiftLeft_or {x y : Word} {n : Nat} (high : x.toNat * 2 ^ n < 2 ^ 32) (low : y.toNat < 2 ^ n) :
    (x <<< n ||| y).toNat = x.toNat * 2 ^ n + y.toNat := by
  rw [BitVec.toNat_or, BitVec.toNat_shiftLeft, Nat.shiftLeft_eq, Nat.mod_eq_of_lt high, ← Nat.shiftLeft_eq,
    Nat.shiftLeft_add_eq_or_of_lt low]

/-- P as the number of the four bytes at the offset, the top bit left out (41_truncate_reduce.md R161). -/
theorem dynTruncate_toNat (hs : List Byte) :
    (dynTruncate hs).toNat
      = ((byteAt hs (truncOffset hs)).toNat % 128) * 2 ^ 24 + (byteAt hs (truncOffset hs + 1)).toNat * 2 ^ 16
        + (byteAt hs (truncOffset hs + 2)).toNat * 2 ^ 8 + (byteAt hs (truncOffset hs + 3)).toNat := by
  have b0 := windowByte_masked_toNat hs 0
  have b1 := windowByte_toNat hs 1
  have b2 := windowByte_toNat hs 2
  have b3 := windowByte_toNat hs 3
  have l1 := (byteAt hs (truncOffset hs + 1)).isLt
  have l2 := (byteAt hs (truncOffset hs + 2)).isLt
  have l3 := (byteAt hs (truncOffset hs + 3)).isLt
  rw [Nat.add_zero] at b0
  have low : (windowByte hs 2 0xFF <<< 8 ||| windowByte hs 3 0xFF).toNat = _ :=
    toNat_shiftLeft_or (by omega) (by omega)
  have middle : (windowByte hs 1 0xFF <<< 16 ||| (windowByte hs 2 0xFF <<< 8 ||| windowByte hs 3 0xFF)).toNat = _ :=
    toNat_shiftLeft_or (by omega) (by omega)
  rw [dynTruncate, BitVec.or_assoc, BitVec.or_assoc, BitVec.toNat_setWidth,
    toNat_shiftLeft_or (by omega) (by omega), middle, low, b0, b1, b2, b3]
  omega

/-- The window ends inside a 20-byte digest, so P is BE_4^-1 of its four bytes without bit 31 (R161, R162). -/
theorem dynTruncate_eq_beInv {hs : List Byte} (length : hs.length = 20) :
    (dynTruncate hs).toNat = beInv ((hs.drop (truncOffset hs)).take 4) % 2 ^ 31 := by
  have offset := truncOffset_eq hs
  have l1 := (byteAt hs (truncOffset hs + 1)).isLt
  have l2 := (byteAt hs (truncOffset hs + 2)).isLt
  have l3 := (byteAt hs (truncOffset hs + 3)).isLt
  rw [take_drop_four (by omega), dynTruncate_toNat]
  simp only [beInv, List.foldl]
  omega

/-- A digest whose truncation is `p`: the bytes of `p`, then zeros, the offset's byte among them (R163). -/
def digestOfTruncation (p : BitVec 31) : List Byte := be 4 p.toNat ++ zeros 16

theorem truncOffset_digestOfTruncation (p : BitVec 31) : truncOffset (digestOfTruncation p) = 0 := by
  rw [truncOffset_eq]
  rfl

theorem take_digestOfTruncation (p : BitVec 31) : (digestOfTruncation p).take 4 = be 4 p.toNat := rfl

theorem dynTruncate_digestOfTruncation (p : BitVec 31) : dynTruncate (digestOfTruncation p) = p := by
  have small := p.isLt
  apply BitVec.eq_of_toNat_eq
  rw [dynTruncate_eq_beInv rfl, truncOffset_digestOfTruncation, List.drop_zero, take_digestOfTruncation, beInv_be]
  omega

/-! ### The time step -/

theorem timeStep_of_lt {t x : Dword} (lt : t.toNat < x.toNat) : timeStep t x = 0 :=
  BitVec.eq_of_toNat_eq ((timeStep_toNat t x).trans (Nat.div_eq_of_lt lt))

/-- By the greatest divisor only the greatest T has step number 1 (42_otp_commands.md R201). -/
theorem timeStep_max (t : Dword) :
    timeStep t 0xFFFFFFFFFFFFFFFF = if t = 0xFFFFFFFFFFFFFFFF then 1 else 0 := by
  split
  · rename_i greatest
    rw [greatest]
    decide
  · rename_i less
    apply timeStep_of_lt
    rw [BitVec.toNat_eq] at less
    have atMost : t.toNat < 2 ^ 64 := t.isLt
    have max : (0xFFFFFFFFFFFFFFFF : Dword).toNat = 2 ^ 64 - 1 := rfl
    omega

end Sys2Proof.Machine

namespace Sys2Proof.Proofs

open Sys2Proof Sys2Proof.Machine

/-- Settles O40: the two keys have one padded key (`paddedKey_append_zeros`). -/
theorem trailingZeroKeyBytesDoNotMatter : Obligations.TrailingZeroKeyBytesDoNotMatter := fun k m n fits => by
  rw [hmacSha1, hmacSha1, paddedKey_append_zeros fits]

/-- Settles O41: the OR of the four shifted bytes is a sum, and the offset is at most 15. -/
theorem truncationReadsTheWindowAtTheOffset : Obligations.TruncationReadsTheWindowAtTheOffset := by
  intro hs length offset
  have same : truncOffset hs = offset := truncOffset_eq hs
  have bound : offset < 16 := Nat.mod_lt _ (by omega)
  exact ⟨same, by omega, same ▸ dynTruncate_toNat hs, same ▸ dynTruncate_eq_beInv length⟩

/-- Settles O42 with `digestOfTruncation`; TRUNC is 31 bits wide, zero-extended. -/
theorem everyThirtyOneBitValueIsATruncation : Obligations.EveryThirtyOneBitValueIsATruncation := by
  refine ⟨fun p => ⟨digestOfTruncation p, rfl, dynTruncate_digestOfTruncation p, truncOffset_digestOfTruncation p,
    take_digestOfTruncation p⟩, fun s => ?_⟩
  have value : s.truncWord.toNat < 2 ^ 31 := s.truncWord_toNat ▸ s.trunc.isLt
  exact ⟨Nat.testBit_lt_two_pow value, by omega⟩

/-- Settles O44: TSTEP is the quotient of the two numbers, and each corner case is arithmetic on it. -/
theorem timeStepIsExactDivision : Obligations.TimeStepIsExactDivision := by
  refine ⟨fun t x _ => ⟨timeStep_toNat t x, timeStep_toNat t x ▸ Nat.div_le_self _ _⟩, fun _ _ => timeStep_of_lt,
    fun t => ?_, by decide, timeStep_max⟩
  exact BitVec.eq_of_toNat_eq ((timeStep_toNat t 1).trans (Nat.div_one _))

/-- Settles O45: `be_four` word by word, and each word of a string serialises back to its four bytes. -/
theorem digestWordsAreBigEndian : Obligations.DigestWordsAreBigEndian :=
  ⟨fun d => by simp only [Digest.bytes, be_four, List.cons_append, List.nil_append],
    fun _ => Digest.bytes_ofBytes⟩

end Sys2Proof.Proofs
end

section
/-! The registers through the window: the map, reads, and writes of operands and of the key (10_state.md R28 to R39,
20_memory.md R61 to R72, 70_reset_and_hazards.md R268). -/

namespace Sys2Proof.Machine

/-! ### Register reads after register writes -/

/-- Each of the five digest words, KEY_LEN, the six halves and TRUNC: the operand and result registers a host writes. -/
def operandRegs : List Reg :=
  [.keyLen, .counterLo, .counterHi, .timeLo, .timeHi, .stepLo, .stepHi, .trunc] ++ digestRegs

/-- TRUNC stores no bit 31 (10_state.md R37). -/
theorem State.readReg_writeReg_trunc (v : Word) (s : State) :
    (s.writeReg .trunc v).readReg .trunc = v &&& 0x7FFFFFFF := by
  apply BitVec.eq_of_toNat_eq
  calc ((s.writeReg .trunc v).readReg .trunc).toNat = (v.setWidth 31).toNat := State.truncWord_toNat _
    _ = v.toNat % 2 ^ 31 := BitVec.toNat_setWidth 31 v
    _ = v.toNat &&& 0x7FFFFFFF := (Nat.and_two_pow_sub_one_eq_mod _ 31).symm
    _ = (v &&& 0x7FFFFFFF).toNat := (BitVec.toNat_and v 0x7FFFFFFF).symm

/-- An operand register reads what was written; TRUNC without bit 31. -/
theorem State.readReg_writeReg_same {r : Reg} (operand : r ∈ operandRegs) (v : Word) (s : State) :
    (s.writeReg r v).readReg r = if r = .trunc then v &&& 0x7FFFFFFF else v := by
  cases r with
  | trunc => exact State.readReg_writeReg_trunc v s
  | keyLen | digest0 | digest1 | digest2 | digest3 | digest4 => rfl
  | counterLo | timeLo | stepLo => exact loHalf_setLoHalf _ v
  | counterHi | timeHi | stepHi => exact hiHalf_setHiHalf _ v
  | _ => simp [operandRegs, digestRegs] at operand

/-- A register write shows in its own register alone, the other half of a 64-bit register among the others. -/
theorem State.readReg_writeReg_of_ne {r r' : Reg} (ne : r' ≠ r) (v : Word) (s : State) :
    (s.writeReg r v).readReg r' = s.readReg r' := by
  cases r with
  | counterLo | counterHi | timeLo | timeHi | stepLo | stepHi =>
    cases r' with
    | counterLo | counterHi | timeLo | timeHi | stepLo | stepHi =>
      simp [State.writeReg, State.readReg] at ne ⊢
    | _ => rfl
  | _ => cases r' <;> simp at ne <;> rfl

@[simp] theorem State.writeReg_response (r : Reg) (v : Word) (s : State) : (s.writeReg r v).response = s.response := by
  cases r <;> rfl

/-- A repeated register write stores what stands there (20_memory.md R67). -/
theorem State.writeReg_twice {s : State} (canonical : s.key.wf) (r : Reg) (v : Word) :
    (s.writeReg r v).writeReg r v = s.writeReg r v := by
  cases r with
  | keyWord j => simp [State.writeReg, State.writeKeyWord, Memory.writeBytes_twice canonical]
  | status => simp [State.writeReg, State.writeStatus]
  | counterLo | timeLo | stepLo => simp [State.writeReg, setLoHalf]
  | counterHi | timeHi | stepHi => simp [State.writeReg, setHiHalf]
  | _ => rfl

/-- A write of a register other than CMD, done again on the state it leaves, leaves that state: dropped again, or
stored again. -/
theorem State.writeTo_twice {s t : State} {r : Reg} {v : Word} (canonical : s.key.wf) (ne : r ≠ .cmd)
    (h : s.writeTo r v = .next t) :
    t.writeTo r v = .next t ∧ t.keyMax = s.keyMax ∧ t.response = s.response := by
  rcases State.writeTo_outcomes h with ⟨busy, dropped, rfl⟩ | ⟨cmd, -⟩ | ⟨cmd, -⟩ | ⟨-, kept, rfl⟩
  · refine ⟨?_, rfl, rfl⟩
    rw [State.writeTo, if_neg ne, if_pos (by simp [busy, dropped])]
    rfl
  · exact absurd cmd ne
  · exact absurd cmd ne
  · refine ⟨?_, by simp, by simp⟩
    rw [State.writeTo, if_neg ne, if_neg (by simpa using kept), State.writeReg_twice canonical]

theorem hostWrite_aligned {off : Offset} {v : Word} {s : State} (al : aligned off = true) :
    hostWrite off v s = { s with response := none }.writeTo (regAt s.keyMax off) v := if_pos al

/-! ### An operand register through the window -/

section

variable {s t : State} {off : Offset} {r : Reg} {v : Word} (al : off.toNat % 4 = 0) (at_off : regAt s.keyMax off = r)
include al at_off

/-- A write of a register marked "dropped while BUSY" sets OVR alone (10_state.md R28). -/
theorem hostWrite_of_busy (ne : r ≠ .cmd) (dropped : r.droppedWhileBusy = true) (busy : s.busy = true) :
    hostWrite off v s = .next { s with response := none, ovr := true } := by
  subst at_off
  rw [hostWrite_of_ne_cmd al ne, if_pos (by simp [busy, dropped])]
  rfl

/-- While IDLE a write is stored. -/
theorem hostWrite_of_idle (ne : r ≠ .cmd) (idle : s.busy = false) :
    hostWrite off v s = .next ({ s with response := none }.writeReg r v) := by
  subst at_off
  rw [hostWrite_of_ne_cmd al ne, if_neg (by simp [idle])]

/-- Every clause of R62 for one operand register, in both phases. -/
theorem hostWrite_operand (operand : r ∈ operandRegs) (truncOffset : off = 0x030 ↔ r = .trunc)
    (stored : t = { s with response := none }.writeReg r v) :
    (s.phase = .idle → hostWrite off v s = .next t ∧
      t.readReg r = (if off = 0x030 then v &&& 0x7FFFFFFF else v) ∧
      (∀ r' : Reg, r' ≠ r → t.readReg r' = s.readReg r') ∧
      ∀ a, t.key.read a = s.key.read a) ∧
    ∀ job, s.phase = .busy job → hostWrite off v s = .next { s with response := none, ovr := true } := by
  have facts : ∀ r ∈ operandRegs, r ≠ .cmd ∧ r.droppedWhileBusy = true ∧ ∀ j, r ≠ .keyWord j := by
    simp [operandRegs, digestRegs, Reg.droppedWhileBusy]
  obtain ⟨ne, dropped, noKey⟩ := facts r operand
  refine ⟨fun idle => ⟨?_, ?_, fun r' other => ?_, fun a => ?_⟩,
    fun job busy => hostWrite_of_busy al at_off ne dropped (State.busy_of_busy busy)⟩
  · rw [hostWrite_of_idle al at_off ne (State.busy_of_idle idle), stored]
  · simp only [stored, State.readReg_writeReg_same operand, truncOffset]
  · rw [stored, State.readReg_writeReg_of_ne other]
    cases r' <;> rfl
  · rcases State.writeReg_key_cases r v { s with response := none } with key | ⟨j, key⟩
    · rw [stored, key]
    · exact absurd key (noKey j)

end

/-! ### Reads -/

/-- The key buffer shows in no register (20_memory.md R72). -/
theorem State.readFrom_other_key (r : Reg) (s : State) (other : Memory) :
    State.readFrom r { s with key := other } = { s.readFrom r with key := other } := by
  have stored : State.readReg r { s with key := other } = s.readReg r := by cases r <;> rfl
  have unspecified : State.unspecified r { s with key := other } = s.unspecified r := rfl
  rw [State.readFrom, State.readFrom, unspecified, stored]
  split <;> rfl

/-- CAP as a number. -/
theorem State.capWord_eq_ofNat (s : State) : s.capWord = BitVec.ofNat 32 (s.keyMax % 2 ^ 16) := by
  apply BitVec.eq_of_toNat_eq
  simp only [State.capWord, BitVec.toNat_setWidth, BitVec.toNat_ofNat]

/-- STATUS as the number of its fields. -/
theorem State.statusWord_eq_ofNat (s : State) :
    s.statusWord = BitVec.ofNat 32
      (s.busy.toNat + 2 * s.done.toNat + 4 * s.ovr.toNat + 16 * (errField s.err).toNat) := by
  rw [← s.statusWord_toNat, BitVec.ofNat_toNat, BitVec.setWidth_eq]

end Sys2Proof.Machine

namespace Sys2Proof.Proofs

open Sys2Proof Sys2Proof.Machine

/-- Settles O50: one lemma, `hostWrite_operand`, for each of the thirteen registers. -/
theorem operandWritesStoreWhileIdleAndDropWhileBusy : Obligations.OperandWritesStoreWhileIdleAndDropWhileBusy := by
  intro s t off v entry
  have low31 : v.extractLsb' 0 31 = v.setWidth 31 := (BitVec.setWidth_eq_extractLsb' (by omega)).symm
  simp only [List.mem_cons, List.not_mem_nil, or_false, Prod.mk.injEq, low31] at entry
  rcases entry with h | h | h | h | h | h | h | h | h | h | h | h | h <;> obtain ⟨rfl, at_off, stored⟩ := h <;>
    rw [at_off] <;> exact hostWrite_operand (by decide) at_off (by decide) (by decide) stored

/-- Settles O51: the listed registers by look-up, the rest of the window by the ranges of its offsets. -/
theorem windowFollowsTheRegisterMap : Obligations.WindowFollowsTheRegisterMap := by
  intro n legal
  refine ⟨fun p listed => ?_,
    fun off atLeast atMost => regAt_of_reservedOffset (.inr (.inr (.inl ⟨atLeast, atMost⟩))),
    fun off j => regAt_of_keyOffset, fun off past => regAt_of_reservedOffset (.inr (.inr (.inr past)))⟩
  have found : registerMap.lookup p.1.toNat = some p.2 ∨ (p.1.toNat = 0x038 ∨ p.1.toNat = 0x03C) ∧ p.2 = .res0 := by
    revert p
    decide
  rcases found with listed | ⟨gap, res0⟩
  · exact regAt_of_lookup listed
  · rw [res0]
    exact regAt_of_reservedOffset (gap.imp_right .inl)

/-- Settles O52: the word's four bytes are those of `be_four`, and the write is a run of bytes in the canonical buffer. -/
theorem keyWindowWriteSetsFourBytes : Obligations.KeyWindowWriteSetsFourBytes := by
  intro s off j v canonical place inside
  have at_off : regAt s.keyMax off = .keyWord j := regAt_of_keyOffset place inside
  have al : off.toNat % 4 = 0 := by omega
  refine ⟨hostWrite_of_busy al at_off (by simp) rfl,
    fun idle => ⟨_, hostWrite_of_idle al at_off (by simp) idle, ?_⟩, ?_⟩
  · have read := State.read_writeKeyWord (s := { s with response := none }) canonical j v
    have bytes : ∀ i, i < 4 →
        (State.writeKeyWord j v { s with response := none }).key.read (4 * j + i) = byteAt (be 4 v.toNat) i :=
      fun i lt => by rw [read, if_pos (by omega), Nat.add_sub_cancel_left]
    refine ⟨(bytes 0 (by omega)).trans ?_, (bytes 1 (by omega)).trans ?_, (bytes 2 (by omega)).trans ?_,
      (bytes 3 (by omega)).trans ?_, fun a out => (read a).trans (if_neg (by omega)), rfl,
      Memory.writeBytes_wf canonical _ _⟩ <;> rw [be_four] <;> rfl
  · rw [hostRead_aligned al, at_off, State.readFrom_of_never_written]
    · rfl
    · intro job written
      cases job <;> simp [Job.writtenRegs, digestRegs] at written

/-- Settles O53: the list of the running command is `Job.writtenRegs`, and each register's value is its stored field. -/
theorem hostReadReturnsStoredOrUnspecified : Obligations.HostReadReturnsStoredOrUnspecified := by
  intro s off al digest unspecified stored
  have values : ∀ r : Reg, s.readReg r = stored r := by
    intro r
    cases r with
    | cap => exact s.capWord_eq_ofNat
    | ctrl => exact s.ctrlWord_eq_ite
    | status =>
      refine s.statusWord_eq_ofNat.trans ?_
      simp only [stored]
      cases s.err with
      | none => rfl
      | some e => cases e <;> rfl
    | _ => rfl
  have lists : ∀ r : Reg, s.unspecified r = true ↔ r ∈ unspecified := by
    intro r
    simp only [State.unspecified, unspecified, digest]
    cases s.phase with
    | idle => simp
    | busy job =>
      cases job <;> simp [Job.writtenRegs, digestRegs]
      tauto
  refine ⟨values, fun free => ?_, fun kept => ?_⟩
  · rw [hostRead_aligned al, State.readFrom, if_pos ((lists _).mpr free)]
  · rw [hostRead_aligned al, State.readFrom, if_neg (mt (lists _).mp kept), values]

/-- Settles O54: a read's outcome is the register's, of which none shows the key buffer. -/
theorem keyCannotBeReadBack : Obligations.KeyCannotBeReadBack := by
  intro s other off
  cases al : aligned off with
  | true => exact .inl ⟨_, if_pos al, (if_pos al).trans (congrArg _ (State.readFrom_other_key _ s other))⟩
  | false => exact .inr ⟨.misaligned, if_neg (by simp [al]), if_neg (by simp [al])⟩

/-- Settles O55: a write dropped is dropped again, and a write stored stores what stands there. -/
theorem repeatingAWriteChangesNothing : Obligations.RepeatingAWriteChangesNothing := by
  intro s t off v canonical ne written
  have al : aligned off = true := (hostOp_next_iff (.write off v) s).mp ⟨t, written⟩
  rw [hostWrite_aligned al] at written
  obtain ⟨again, keyMax, response⟩ := State.writeTo_twice (s := { s with response := none }) canonical ne written
  have quiet : { t with response := none } = t := congrArg (fun x => { t with response := x }) response.symm
  rw [hostWrite_aligned al, quiet, keyMax]
  exact again

end Sys2Proof.Proofs
end

section
/-! `setkey`: a key loaded word by word (30_encoding.md R100, 10_state.md R35). -/

namespace Sys2Proof.Machine

/-! ### The bytes `setkey` writes -/

theorem Memory.writeBytes_append (m : Memory) (a : Nat) (vs ws : List Byte) :
    m.writeBytes a (vs ++ ws) = (m.writeBytes a vs).writeBytes (a + vs.length) ws := by
  induction vs generalizing m a with
  | nil => rfl
  | cons v vs ih =>
    rw [List.cons_append, Memory.writeBytes, ih, List.length_cons, Nat.add_comm vs.length 1, ← Nat.add_assoc]
    rfl

/-- The bytes of `m` key words from word `j` on, the last word's missing bytes 0x00. -/
def keyWordBytes (b : List Byte) (j m : Nat) : List Byte := ((b ++ zeros 3).drop (4 * j)).take (4 * m)

/-- One word, then the rest. -/
theorem keyWordBytes_succ {b : List Byte} {j : Nat} (m : Nat) (inside : 4 * j < b.length) :
    keyWordBytes b j (m + 1) = be 4 (keyWordOf b j).toNat ++ keyWordBytes b (j + 1) m := by
  rw [keyWordOf, be_wordAt (by simpa using inside), keyWordBytes, keyWordBytes, Nat.mul_succ, Nat.add_comm (4 * m),
    List.take_add, List.drop_drop, Nat.mul_succ]

theorem keyWordBytes_length (b : List Byte) :
    (keyWordBytes b 0 ((b.length + 3) / 4)).length = 4 * ((b.length + 3) / 4) := by
  simp [keyWordBytes]
  omega

/-- Byte `a` of all the words is the key's, or 0x00 past its end. -/
theorem byteAt_keyWordBytes {b : List Byte} {a : Nat} (inside : a < 4 * ((b.length + 3) / 4)) :
    byteAt (keyWordBytes b 0 ((b.length + 3) / 4)) a = byteAt b a := by
  simp only [byteAt, keyWordBytes, List.getD_eq_getElem?_getD, Nat.mul_zero, List.drop_zero,
    List.getElem?_take_of_lt inside]
  rcases Nat.lt_or_ge a b.length with key | missing
  · rw [List.getElem?_append_left key]
  · rw [List.getElem?_append_right missing, List.getElem?_eq_none missing, zeros, List.getElem?_replicate]
    split <;> rfl

/-! ### The steps of `setkey` -/

/-- From IDLE with no turn prescribed the host's write of a register other than CMD is the next step, and is stored. -/
theorem step_hostWrite {s : State} {off : Offset} {v : Word} {r : Reg} {rest : List HostOp} (idle : s.phase = .idle)
    (turns : s.turns = []) (l : s.host = .write off v :: rest) (al : off.toNat % 4 = 0)
    (at_off : regAt s.keyMax off = r) (ne : r ≠ .cmd) :
    step s = .next ({ s with host := rest, response := none }.writeReg r v) := by
  have notBusy : s.busy = false := State.busy_of_idle idle
  have mover : s.mover = .host := by simp [mover_default turns, nextAgent, l, notBusy]
  have taken := State.taken_of_no_turns turns
  rw [step_host mover, taken, hostTurn_cons l]
  exact hostWrite_of_idle (s := { s with host := rest }) al at_off ne notBusy

/-- The writes of `setkey b` from word `j` on, `m` words and then KEY_LEN. -/
def setkeyFrom (b : List Byte) (j m : Nat) : List HostOp :=
  (List.range' j m).map (fun i => .write (BitVec.ofNat 12 (0x100 + 4 * i)) (keyWordOf b i))
    ++ [.write 0x014 (BitVec.ofNat 32 b.length)]

theorem setkey_eq_setkeyFrom (b : List Byte) : setkey b = setkeyFrom b 0 ((b.length + 3) / 4) := by
  rw [setkey, setkeyFrom, List.range_eq_range']

/-- By induction on the words left: each step stores one, the last stores KEY_LEN. -/
theorem run_setkeyFrom (b : List Byte) (rest : List HostOp) (m : Nat) : ∀ (j : Nat) (s : State),
    Config.LegalKeyMax s.keyMax → s.phase = .idle → s.turns = [] → s.host = setkeyFrom b j m ++ rest →
    b.length ≤ s.keyMax → 4 * (j + m) < b.length + 4 →
    Sys2Proof.core.run (m + 1) s = .next { s with
      host := rest, response := none, key := s.key.writeBytes (4 * j) (keyWordBytes b j m),
      keyLen := BitVec.ofNat 32 b.length } := by
  induction m with
  | zero =>
    intro j s _ idle turns l _ _
    have none_left : keyWordBytes b j 0 = [] := by simp [keyWordBytes]
    rw [core_run_succ (step_hostWrite idle turns l rfl (regAt_of_lookup (r := .keyLen) (by decide)) (by simp)),
      none_left]
    rfl
  | succ m ih =>
    intro j s legal idle turns l fits words
    have inside : 4 * j < b.length := by omega
    have ⟨_, atMost, _⟩ := legal
    have place : (BitVec.ofNat 12 (0x100 + 4 * j)).toNat = 0x100 + 4 * j := by
      rw [BitVec.toNat_ofNat]
      omega
    have stored := step_hostWrite (rest := setkeyFrom b (j + 1) m ++ rest) idle turns l (by omega)
      (regAt_of_keyOffset place (by omega)) (by simp)
    have others := ih (j + 1) (State.writeKeyWord j (keyWordOf b j)
      { s with host := setkeyFrom b (j + 1) m ++ rest, response := none }) legal idle turns rfl fits (by omega)
    refine (core_run_succ stored).trans (others.trans ?_)
    rw [keyWordBytes_succ m inside, Memory.writeBytes_append, be_length]
    rfl

end Sys2Proof.Machine

namespace Sys2Proof.Proofs

open Sys2Proof Sys2Proof.Machine

/-- Settles O58: the key words are one run of bytes from KEY[0] on (`run_setkeyFrom`), which reads back as the key and
then 0x00. -/
theorem setkeyLoadsTheKey : Obligations.SetkeyLoadsTheKey := by
  intro s b rest inv idle turns l fits
  obtain ⟨-, atMost, -⟩ := inv.keyMaxLegal
  rw [setkey_eq_setkeyFrom] at l
  have run := run_setkeyFrom b rest _ 0 s inv.keyMaxLegal idle turns l fits (by omega)
  have keyLen : (BitVec.ofNat 32 b.length).toNat = b.length := by
    rw [BitVec.toNat_ofNat]
    omega
  have written : ∀ a, a < 4 * ((b.length + 3) / 4) →
      (s.key.writeBytes (4 * 0) (keyWordBytes b 0 ((b.length + 3) / 4))).read a = byteAt b a := fun a inside => by
    have read := Memory.read_writeBytes_inside inv.keyCanonical (4 * 0)
      (vs := keyWordBytes b 0 ((b.length + 3) / 4)) (i := a) (by rwa [keyWordBytes_length])
    rwa [Nat.mul_zero, Nat.zero_add, byteAt_keyWordBytes inside] at read
  refine ⟨_, run, ?_, keyLen, fun a past inside => ?_, fun a outside => ?_, rfl,
    Memory.writeBytes_wf inv.keyCanonical _ _⟩
  · rw [keyLen]
    refine List.ext_getElem (by simp) fun i _ inside => ?_
    rw [List.getElem_map, List.getElem_range, written i (by omega), byteAt, List.getD_eq_getElem _ _ inside]
  · rw [written a inside, byteAt, List.getD_eq_default _ _ past]
  · exact Memory.read_writeBytes_outside _ (.inr (by rw [keyWordBytes_length]; omega))

end Sys2Proof.Proofs
end
